-- ==== Sys2Proof/Word.lean ====
section
/-! DEFINITION. The word types of the command port and of the memories (30_encoding.md R60, R61; 20_memory.md R42). -/

namespace Sys2Proof

/-- A command word: one 32-bit value, delivered to the port whole (R60). -/
abbrev Word := BitVec 32

/-- The operand field ARG of a command word, and the width of SCALE, QUANT and MODE (R61, R15-R17). -/
abbrev Arg := BitVec 24

/-- One element of a memory or of the input stream (R42). -/
abbrev Byte := BitVec 8

end Sys2Proof
end

