-- ==== Sys2Proof/Config.lean ====
section
/-! DEFINITION. The implementation parameters of the block (00_scope.md R6). W and H are arguments of the model
(decision D26), so they are data, carried in State.dims; every other parameter is a constant. LOGBASE has no entry: it
cancels and is unobservable (R150). -/

namespace Sys2Proof

/-- The source image dimensions W and H in pixels (R6). -/
structure Dims where
  w : Nat
  h : Nat
  deriving DecidableEq, Repr

/-- N = W * H, samples per plane (R6). -/
def Dims.samples (d : Dims) : Nat := d.w * d.h

/-- The dimensions of this hardware: W = H = 512 (R6). -/
def Config.dims : Dims := { w := 512, h := 512 }

/-- STRIDE, the auto-pivot sampling stride (R6). -/
abbrev Config.stride : Nat := 100

/-- CHANNELS (R6). -/
abbrev Config.channels : Nat := 3

/-- TAP_DIV, the per-tap divisor of the box filter (R6). -/
abbrev Config.tapDiv : Nat := 9

/-- QUANT_MIN and QUANT_MAX, the legal bit counts (R6). -/
abbrev Config.quantMin : Nat := 1
@[inherit_doc Config.quantMin] abbrev Config.quantMax : Nat := 8

/-- scale = 1 in the format of SCALE, which has SCALE_FRAC = 16 fraction bits (R6, R15). -/
abbrev Config.scaleOne : Nat := 65536

end Sys2Proof
end

