-- ==== Sys2Proof/Syntax.lean ====
section
/-! DEFINITION. The commands of the engine, one constructor per row of the opcode map (30_encoding.md R63). -/

namespace Sys2Proof

/-- The eleven commands. An immediate is the integer R62 gives it: unsigned for SETSCALE and SETQUANT, signed for
SETMODE. No other command has an operand. -/
inductive Instr where
  | nop
  | setscale (imm : Nat)
  | setquant (imm : Nat)
  | setmode (imm : Int)
  | load
  | pivot
  | resample
  | quni
  | qlog
  | pack
  | run
  deriving DecidableEq, Repr

end Sys2Proof
end

