-- ==== Sys2Proof/WellFormed.lean ====
section
/-! DEFINITION. Which commands have an encoding: the immediate fits the 24-bit field (30_encoding.md R62, R73). -/

namespace Sys2Proof

/-- `0 ≤ imm ≤ 16777215` for the unsigned immediates, `-8388608 ≤ imm ≤ 8388607` for SETMODE (R62). -/
def Instr.wellFormed : Instr → Bool
  | .setscale imm => decide (imm < 2 ^ 24)
  | .setquant imm => decide (imm < 2 ^ 24)
  | .setmode imm => decide (-2 ^ 23 ≤ imm ∧ imm < 2 ^ 23)
  | .nop | .load | .pivot | .resample | .quni | .qlog | .pack | .run => true

end Sys2Proof
end

