-- ==== Sys2Proof/Decode.lean ====
section
/-! DEFINITION. Decoding a command word and encoding a command (30_encoding.md R60-R68). -/

namespace Sys2Proof

/-- Why a word is illegal (R64, R65). Both raise IllegalCommand with ERRINFO = the word. -/
inductive DecodeError where
  /-- OPC is none of the eleven assigned codes (R64). -/
  | reservedOpcode
  /-- A Z-format word whose ARG is not zero (R65). -/
  | nonzeroArgument
  deriving DecidableEq, Repr

/-- OPC = w[31:24] (R61). -/
def opc (w : Word) : BitVec 8 := w.extractLsb' 24 8

/-- ARG = w[23:0] (R61). -/
def arg (w : Word) : Arg := w.extractLsb' 0 24

/-- zext_24: ARG read as an unsigned integer (R8, R62). -/
abbrev zextArg (a : Arg) : Nat := a.toNat

/-- sext_24: ARG read as a two's complement integer (R8, R62). -/
abbrev sextArg (a : Arg) : Int := a.toInt

/-- Format Z: ARG must be zero (R61, R65). -/
def decodeZ (a : Arg) (i : Instr) : Except DecodeError Instr :=
  if a = 0 then .ok i else .error .nonzeroArgument

/-- The opcode map (R63). Total on all words; the meaning of a word depends on no state (R67, R68). -/
def decode (w : Word) : Except DecodeError Instr :=
  match opc w with
  | 0x00#8 => decodeZ (arg w) .nop
  | 0x01#8 => .ok (.setscale (zextArg (arg w)))
  | 0x02#8 => .ok (.setquant (zextArg (arg w)))
  | 0x03#8 => .ok (.setmode (sextArg (arg w)))
  | 0x10#8 => decodeZ (arg w) .load
  | 0x11#8 => decodeZ (arg w) .pivot
  | 0x12#8 => decodeZ (arg w) .resample
  | 0x13#8 => decodeZ (arg w) .quni
  | 0x14#8 => decodeZ (arg w) .qlog
  | 0x15#8 => decodeZ (arg w) .pack
  | 0x1F#8 => decodeZ (arg w) .run
  | _ => .error .reservedOpcode

/-- The 24 bits that carry an unsigned immediate (R62). -/
abbrev unsignedArg (imm : Nat) : Arg := BitVec.ofNat 24 imm

/-- The 24 bits that carry a signed immediate: imm mod 2^24 (R73). -/
abbrev signedArg (imm : Int) : Arg := BitVec.ofInt 24 imm

/-- A word from its two fields, OPC in the high bits (R61). -/
def mkWord (op : BitVec 8) (a : Arg) : Word := op ++ a

/-- The word of a command (R63, R73). For a command that is not well-formed it keeps the low 24 bits of the immediate. -/
def encode : Instr → Word
  | .nop => mkWord 0x00 0
  | .setscale imm => mkWord 0x01 (unsignedArg imm)
  | .setquant imm => mkWord 0x02 (unsignedArg imm)
  | .setmode imm => mkWord 0x03 (signedArg imm)
  | .load => mkWord 0x10 0
  | .pivot => mkWord 0x11 0
  | .resample => mkWord 0x12 0
  | .quni => mkWord 0x13 0
  | .qlog => mkWord 0x14 0
  | .pack => mkWord 0x15 0
  | .run => mkWord 0x1F 0

/-- The command word whose low `nbits` bits are those of `w` and whose other bits are zero. -/
def tableWord (nbits w : Nat) : Word := BitVec.ofNat 32 (w % 2 ^ nbits)

/-- What the decoder reads from an opcode-table word: bit 0 is the least significant bit of the one 32-bit word. -/
def decodeTableWord (nbits w : Nat) : Option Instr := (decode (tableWord nbits w)).toOption

end Sys2Proof
end

