-- ==== Sys2Proof/Machine/State.lean ====
section
/-! DEFINITION. The state of the engine and of its environment, the reasons a step can stop, and the state after reset
(10_state.md; 70_reset_and_hazards.md R210, R217). -/

namespace Sys2Proof.Machine

/-- PHASE (R20). The reserved value 6 is never taken and has no constructor (93 V3). -/
inductive Phase where
  | idle
  | loaded
  | pivoted
  | resampled
  | quantized
  | done
  | error
  deriving DecidableEq, Repr

/-- ERR (R21, R180). The values 5 to 7 never occur and have no constructor (93 V4). -/
inductive ErrCode where
  | none
  | paramError
  | ioError
  | sequenceError
  | illegalCommand
  deriving DecidableEq, Repr

/-- A channel: R = 0, G = 1, B = 2 (R10). -/
inductive Channel where
  | r
  | g
  | b
  deriving DecidableEq, Repr

/-- One memory: (index, byte) pairs with strictly rising indices. An index that is not listed is unwritten: it holds no
value (R14, R36). -/
abbrev Memory := List Host.Cell

/-- Three memories M.0, M.1, M.2, one per channel (R25-R27). -/
structure Planes where
  r : Memory
  g : Memory
  b : Memory
  deriving DecidableEq, Repr

/-- What the host can do to the engine: the five rows of the host interface (R217), one per step. -/
inductive HostAction where
  /-- Assert RST (R210). -/
  | reset
  /-- Write one command word to the port (R60, R72). -/
  | command (w : Word)
  /-- Make IN a byte sequence, or absent (R29, R215). -/
  | supply (stream : Option (List Byte))
  /-- Read the status registers (R35). -/
  | readStatus
  /-- Read PACKED[k] (R35, R214). -/
  | readResult (k : Nat)
  deriving DecidableEq, Repr

/-- The ten registers and four memories of R13, and, in the first three fields, what R6, R29 and R217 call parameters
and inputs of a step: a step has no other argument. -/
structure State where
  /-- W and H (R6). No step changes them. -/
  dims : Dims
  /-- What the host does next, first action first. It is the environment's, not a queue of the engine (R216). -/
  host : List HostAction
  /-- IN: `none` is absent (R29). -/
  input : Option (List Byte)
  /-- SCALE, `none` is unset; its meaning is SCALE / 65536 (R15). -/
  scale : Option Arg
  /-- QUANT, `none` is unset (R16). -/
  quant : Option Arg
  /-- MODE, two's complement, `none` is unset (R17). -/
  mode : Option Arg
  /-- PIVOT, -1 .. 255, `none` is unset (R18). -/
  pivot : Option Int
  /-- OUTW, `none` is unset (R19). -/
  outw : Option Nat
  /-- OUTH, `none` is unset (R19). -/
  outh : Option Nat
  /-- PHASE (R20). -/
  phase : Phase
  /-- ERR (R21). -/
  err : ErrCode
  /-- ERRINFO (R22). -/
  errinfo : Word
  /-- WARN bit 0, TRUNC (R23). -/
  trunc : Bool
  /-- SRC.0, SRC.1, SRC.2 (R25). -/
  src : Planes
  /-- RND.0, RND.1, RND.2 (R26). -/
  rnd : Planes
  /-- QNT.0, QNT.1, QNT.2 (R27). -/
  qnt : Planes
  /-- PACKED (R28). -/
  packed : Memory
  deriving DecidableEq, Repr

/-- Why the model stops inside a command. The spec proves that each situation cannot arise (R14, R24, R45, R91); no
state that satisfies the invariant of Safety.lean raises one. All are safe: the model stops where the spec gives no
behaviour. -/
inductive Fault where
  /-- A stage command reads SCALE, QUANT, PIVOT, OUTW, OUTH or MODE while it is unset (R14). Raised by the bodies of
  PIVOT, RESAMPLE, QUNI, QLOG and PACK. Safe. -/
  | unsetRegister
  /-- A stage command reads a memory location that nothing has written (R45). Raised through the one-byte read by PIVOT,
  RESAMPLE, QUNI, QLOG and PACK. Safe. -/
  | unwrittenLocation
  /-- An index at or beyond the capacity of the memory it is used on (R40, R45). Raised through the one-byte read and
  write by the stage commands. Safe. -/
  | indexOutOfRange
  /-- NUMINT with QUANT outside 1..8, where R24 leaves it undefined, or QLOG with PIVOT outside 0..255, which R140
  excludes. Raised by QUNI and QLOG. Safe. -/
  | illegalParameter
  deriving DecidableEq, Repr

/-- Why the model gives a situation no meaning. -/
inductive Refusal where
  /-- An instruction without a meaning. No arm of `exec` answers it. Safe. -/
  | notModelled (mnemonic : String)
  /-- The host reads PACKED while PHASE is not DONE (R214, 93 W1). Raised by the result read of the host port. Safe: no
  claim can rest on such a read. -/
  | resultReadOutsideDone
  /-- The host reads PACKED[k] with k not below 3 * OUTW * OUTH (R35, 93 W1). Raised by the result read of the host port.
  Safe. -/
  | resultReadOutOfRange
  deriving DecidableEq, Repr

/-- Three memories with every location unwritten. -/
def Planes.unwritten : Planes := { r := [], g := [], b := [] }

/-- The state after reset (R36), with the dimensions of this hardware, no stream supplied and no host action pending. -/
def State.reset : State where
  dims := Config.dims
  host := []
  input := none
  scale := none
  quant := none
  mode := none
  pivot := none
  outw := none
  outh := none
  phase := .idle
  err := .none
  errinfo := 0
  trunc := false
  src := Planes.unwritten
  rnd := Planes.unwritten
  qnt := Planes.unwritten
  packed := []

end Sys2Proof.Machine
end

