-- ==== Sys2Proof/Machine/Ops.lean ====
section
/-! DEFINITION. The named operations over memories and registers, raising an error, reset, the table of legal phases and
the dispatch checks (00_scope.md R9; 10_state.md; 20_memory.md; 30_encoding.md R71, R72; 60_exceptions.md R188). -/

namespace Sys2Proof.Machine

/-! ### One memory (R9, R40, R42) -/

/-- The byte at index `i`, or `none` where nothing has been written (R14). -/
def Memory.read : Memory → Nat → Option Byte
  | [], _ => none
  | (a, b) :: m, i => if a = i then some b else Memory.read m i

/-- MemWrite(M, i, 1, v): insertion in index order; a cell already at `i` is replaced (R9). -/
def Memory.write : Memory → Nat → Byte → Memory
  | [], i, v => [(i, v)]
  | (a, b) :: m, i, v =>
    if i < a then (i, v) :: (a, b) :: m
    else if a = i then (i, v) :: m
    else (a, b) :: Memory.write m i v

/-- The canonical form: indices strictly rising. An unlisted index holds no value, so no entry repeats what an unlisted
index reads as. -/
abbrev Memory.wf (m : Memory) : Prop := m.Pairwise fun x y => x.1 < y.1

/-- Every listed index lies below the capacity (R40). -/
abbrev Memory.within (m : Memory) (cap : Nat) : Prop := ∀ x ∈ m, x.1 < cap

/-- Every index below `n` has been written. -/
abbrev Memory.filled (m : Memory) (n : Nat) : Prop := ∀ i < n, (Memory.read m i).isSome = true

/-- MemRead(M, i, 1) by a stage command: the byte, or a fault where the spec gives none (R9, R45). -/
def fetchByte (cap : Nat) (m : Memory) (i : Nat) : Except Fault Byte :=
  if i < cap then
    match Memory.read m i with
    | some v => .ok v
    | none => .error .unwrittenLocation
  else .error .indexOutOfRange

/-- MemWrite(M, i, 1, v) by a stage command, inside the capacity of the memory (R9, R40). -/
def storeByte (cap : Nat) (m : Memory) (i : Nat) (v : Byte) : Except Fault Memory :=
  if i < cap then .ok (Memory.write m i v) else .error .indexOutOfRange

/-- `for j in 0..n-1: M[j] <- f j`. The order of the indices is not observable (R48); this one runs downwards, so that
each write into an unwritten memory lands at the head of the list. -/
def fillMemory (cap : Nat) (f : Nat → Except Fault Byte) : Nat → Memory → Except Fault Memory
  | 0, m => .ok m
  | j + 1, m =>
    match f j with
    | .error e => .error e
    | .ok v =>
      match storeByte cap m j v with
      | .error e => .error e
      | .ok m' => fillMemory cap f j m'

/-- `acc <- 0; for i in is: acc <- acc + g (M[i])`, the running sum of the filter and of the auto-pivot. -/
def sumReads (g : Nat → Nat) (rd : Nat → Except Fault Byte) : List Nat → Except Fault Nat
  | [] => .ok 0
  | i :: is =>
    match rd i with
    | .error e => .error e
    | .ok v =>
      match sumReads g rd is with
      | .error e => .error e
      | .ok acc => .ok (g v.toNat + acc)

/-! ### Three memories, one per channel (R25-R27, R116) -/

/-- Channel numbers R = 0, G = 1, B = 2 (R10). -/
def channelIndex : Channel → Nat
  | .r => 0
  | .g => 1
  | .b => 2

/-- M.c. -/
def planeOf (p : Planes) : Channel → Memory
  | .r => p.r
  | .g => p.g
  | .b => p.b

/-- The canonical form of each of the three memories. -/
abbrev Planes.wf (p : Planes) : Prop := Memory.wf p.r ∧ Memory.wf p.g ∧ Memory.wf p.b

/-- Every listed index of each memory lies below the capacity (R40). -/
abbrev Planes.within (p : Planes) (cap : Nat) : Prop :=
  Memory.within p.r cap ∧ Memory.within p.g cap ∧ Memory.within p.b cap

/-- Every index below `n` of each memory has been written. -/
abbrev Planes.filled (p : Planes) (n : Nat) : Prop :=
  Memory.filled p.r n ∧ Memory.filled p.g n ∧ Memory.filled p.b n

/-- `for j in 0..n-1: for c in 0..2: M.c[j] <- f c j`. No value depends on another written here (R48). -/
def fillPlanes (cap : Nat) (f : Channel → Nat → Except Fault Byte) (n : Nat) (p : Planes) : Except Fault Planes :=
  match fillMemory cap (f .r) n p.r, fillMemory cap (f .g) n p.g, fillMemory cap (f .b) n p.b with
  | .ok r, .ok g, .ok b => .ok { r := r, g := g, b := b }
  | .error e, _, _ => .error e
  | _, .error e, _ => .error e
  | _, _, .error e => .error e

/-! ### Registers -/

/-- Read of a register by a stage command; no rule reads an unset register (R14). -/
def readReg {α : Type} : Option α → Except Fault α
  | some v => .ok v
  | none => .error .unsetRegister

/-- The 3-bit value of PHASE (R20). -/
def phaseCode : Phase → BitVec 3
  | .idle => 0
  | .loaded => 1
  | .pivoted => 2
  | .resampled => 3
  | .quantized => 4
  | .done => 5
  | .error => 7

/-- The 3-bit value of ERR (R21, R180). -/
def errValue : ErrCode → BitVec 3
  | .none => 0
  | .paramError => 1
  | .ioError => 2
  | .sequenceError => 3
  | .illegalCommand => 4

/-- MODE as the signed integer it is (R17). -/
def modeInt (s : State) : Option Int := s.mode.map sextArg

/-! ### The writes of the commands -/

/-- `SCALE <- v` (R81). -/
def setScale (v : Arg) (s : State) : State := { s with scale := some v }

/-- `QUANT <- v` (R82). -/
def setQuant (v : Arg) (s : State) : State := { s with quant := some v }

/-- `MODE <- v` (R83). -/
def setMode (v : Arg) (s : State) : State := { s with mode := some v }

/-- What LOAD writes: SRC, WARN.TRUNC and PHASE (R90). -/
def finishLoad (src : Planes) (trunc : Bool) (s : State) : State :=
  { s with src := src, trunc := trunc, phase := .loaded }

/-- What PIVOT writes: PIVOT and PHASE (R100). -/
def finishPivot (p : Int) (s : State) : State := { s with pivot := some p, phase := .pivoted }

/-- What RESAMPLE writes: OUTW, OUTH, RND and PHASE (R110). -/
def finishResample (ow oh : Nat) (rnd : Planes) (s : State) : State :=
  { s with outw := some ow, outh := some oh, rnd := rnd, phase := .resampled }

/-- What QUNI and QLOG write: QNT and PHASE (R130, R140). -/
def finishQuantize (qnt : Planes) (s : State) : State := { s with qnt := qnt, phase := .quantized }

/-- What PACK writes: PACKED and PHASE (R160). -/
def finishPack (packed : Memory) (s : State) : State := { s with packed := packed, phase := .done }

/-! ### Errors and reset -/

/-- `raise E(info)`: ERR, ERRINFO and PHASE are written and nothing else; no pc, mode or handler exists (R188). There is
no return from an error (R191): the way out is `resetEngine`. -/
def raise (e : ErrCode) (info : Word) (s : State) : State :=
  { s with err := e, errinfo := info, phase := .error }

/-- RST asserted: every register and memory takes its reset value, in every phase (R36, R210). W, H, IN and the host's
coming actions are no state of the engine and stay. -/
def resetEngine (s : State) : State :=
  { State.reset with dims := s.dims, host := s.host, input := s.input }

/-! ### Dispatch (R71, R72, R187) -/

/-- The table of legal phases (R71). NOP is legal in every phase but ERROR, which the dispatch has excluded before. -/
def legalNow (i : Instr) (s : State) : Bool :=
  match i with
  | .nop => true
  | .setscale _ | .setquant _ | .setmode _ | .load | .run => decide (s.phase = .idle)
  | .pivot => decide (s.phase = .loaded)
  | .resample => decide (s.phase = .pivoted)
  | .quni => decide (s.phase = .resampled ∧ modeInt s = some (-1))
  | .qlog => decide (s.phase = .resampled ∧ modeInt s ≠ some (-1))
  | .pack => decide (s.phase = .quantized)

/-- A command's own rule as an outcome of the step. -/
def finish : Except Fault State → Host.Outcome State Fault Refusal
  | .ok s => .next s
  | .error e => .fault e

/-- Exec(w, env) for a word that decodes to `i`: ignored in ERROR; SequenceError with the word where the command is not
legal; else the command's own rule (R72, R183, R190). -/
def guarded (i : Instr) (body : State → Except Fault State) (s : State) : Host.Outcome State Fault Refusal :=
  if s.phase = .error then .next s
  else if legalNow i s then finish (body s)
  else .next (raise .sequenceError (encode i) s)

end Sys2Proof.Machine
end

