-- ==== Sys2Proof/Machine/Operands.lean ====
section
/-! DEFINITION. Operand values and derived values: the parameter check, NUMINT, BITINT, NEWSIZE and the stream
(10_state.md R19, R24; 41_planar_rgb_loader.md R91-R93). -/

namespace Sys2Proof.Machine

/-- 1 ≤ SCALE ≤ 65536, and set (R15, R91). -/
def scaleLegal : Option Arg → Bool
  | none => false
  | some a => decide (1 ≤ a.toNat ∧ a.toNat ≤ Config.scaleOne)

/-- 1 ≤ QUANT ≤ 8, and set (R16, R91). -/
def quantLegal : Option Arg → Bool
  | none => false
  | some a => decide (Config.quantMin ≤ a.toNat ∧ a.toNat ≤ Config.quantMax)

/-- -2 ≤ MODE ≤ 255, and set (R17, R91). -/
def modeLegal : Option Arg → Bool
  | none => false
  | some a => decide (-2 ≤ sextArg a ∧ sextArg a ≤ 255)

/-- ParamCheck: bit 0 SCALE, bit 1 QUANT, bit 2 MODE, set where the parameter is unset or illegal (R91). -/
def paramCheck (s : State) : BitVec 3 :=
  (if scaleLegal s.scale then 0 else 1) ||| (if quantLegal s.quant then 0 else 2) |||
    (if modeLegal s.mode then 0 else 4)

/-- NUMINT = 2^QUANT, defined only when QUANT is set and legal (R24). -/
def numInt (s : State) : Except Fault Nat :=
  match readReg s.quant with
  | .error e => .error e
  | .ok q => if quantLegal (some q) then .ok (2 ^ q.toNat) else .error .illegalParameter

/-- BITINT = 256 // NUMINT (R24). -/
def bitInt (n : Nat) : Nat := 256 / n

/-- NEWSIZE = OUTW * OUTH, defined only when both are set (R19). -/
def newSize (s : State) : Except Fault Nat :=
  match readReg s.outw, readReg s.outh with
  | .ok ow, .ok oh => .ok (ow * oh)
  | .error e, _ => .error e
  | _, .error e => .error e

/-- PIVOT as QLOG reads it, an integer in 0..255 (R18, R140). -/
def pivotSample (s : State) : Except Fault Nat :=
  match readReg s.pivot with
  | .error e => .error e
  | .ok p => if 0 ≤ p ∧ p ≤ 255 then .ok p.toNat else .error .illegalParameter

/-- StreamRead(k): byte k of the stream, or `none` past its end (R9). -/
def streamRead (bytes : List Byte) (k : Nat) : Option Byte := bytes[k]?

/-- PlaneByte(IN, c, i): stream position c * N + i, and 0 past the end (R41, R92, R93). -/
def planeByte (bytes : List Byte) (n : Nat) (c : Channel) (i : Nat) : Byte :=
  match streamRead bytes (channelIndex c * n + i) with
  | none => 0
  | some b => b

end Sys2Proof.Machine
end

