-- ==== Sys2Proof/Machine/Flags.lean ====
section
/-! DEFINITION. The status bits that commands write as a side effect: WARN.TRUNC and the contents of ERRINFO
(10_state.md R22, R23, R32). There are no arithmetic flags (R32). -/

namespace Sys2Proof.Machine

/-- WARN.TRUNC: the stream held fewer than 3 * N bytes (R23, R93). -/
def truncFlag (bytes : List Byte) (n : Nat) : Bool := decide (bytes.length < Config.channels * n)

/-- WARN as the host reads it, one bit (R23). -/
def warnValue (s : State) : BitVec 1 := if s.trunc then 1 else 0

/-- ERRINFO of a ParamError: the mask in bits 2:0, bits 31:3 zero (R22). -/
def paramInfo (mask : BitVec 3) : Word := mask.setWidth 32

/-- ERRINFO of an IOError (R22). -/
def ioInfo : Word := 0

end Sys2Proof.Machine
end

