-- ==== Sys2Proof/Machine/Configure.lean ====
section
/-! DEFINITION. The configuration commands NOP, SETSCALE, SETQUANT, SETMODE (40_config_commands.md R80-R83). -/

namespace Sys2Proof.Machine

/-- NOP changes nothing (R80). -/
def execNop (s : State) : Host.Outcome State Fault Refusal :=
  guarded .nop (fun s => .ok s) s

/-- `SCALE <- imm`: any 24-bit value, legal or not (R81). -/
def execSetscale (imm : Nat) (s : State) : Host.Outcome State Fault Refusal :=
  guarded (.setscale imm) (fun s => .ok (setScale (unsignedArg imm) s)) s

/-- `QUANT <- imm`: any 24-bit value, legal or not (R82). -/
def execSetquant (imm : Nat) (s : State) : Host.Outcome State Fault Refusal :=
  guarded (.setquant imm) (fun s => .ok (setQuant (unsignedArg imm) s)) s

/-- `MODE <- imm`: any value; PIVOT is not touched (R83). -/
def execSetmode (imm : Int) (s : State) : Host.Outcome State Fault Refusal :=
  guarded (.setmode imm) (fun s => .ok (setMode (signedArg imm) s)) s

end Sys2Proof.Machine
end

