-- ==== Sys2Proof/Machine/BoxFilter.lean ====
section
/-! DEFINITION. Unit box_filter_3x3_rgb with its coordinate mapper, command RESAMPLE (43_box_filter_3x3_rgb.md
R110-R120). All arithmetic is exact arithmetic on natural numbers (R120). -/

namespace Sys2Proof.Machine

/-- OutDims: the two floors of W * SCALE / 65536 and H * SCALE / 65536 (R111). -/
def outDims (d : Dims) (scale : Nat) : Nat × Nat :=
  (d.w * scale / Config.scaleOne, d.h * scale / Config.scaleOne)

/-- SrcCoord: the source row and column of output index `j` (R112). -/
def srcCoord (ow scale j : Nat) : Nat × Nat :=
  (j / ow * Config.scaleOne / scale, j % ow * Config.scaleOne / scale)

/-- Interior: 1 ≤ row ≤ H - 2 and 1 ≤ col ≤ W - 2, over the integers (R113). -/
def isInterior (d : Dims) (row col : Nat) : Bool :=
  decide (1 ≤ row ∧ row + 2 ≤ d.h ∧ 1 ≤ col ∧ col + 2 ≤ d.w)

/-- The linear index of source pixel (row, col): row * W + col (R10). -/
def srcIndex (d : Dims) (row col : Nat) : Nat := row * d.w + col

/-- The linear indices of the nine taps around an interior coordinate, dr and dc in -1..1 (R114). -/
def tapIndices (d : Dims) (row col : Nat) : List Nat :=
  [row - 1, row, row + 1].flatMap fun r => [col - 1, col, col + 1].map fun c => srcIndex d r c

/-- BoxFilter9: the sum of the nine taps, each divided by 9 before the summation (R114). -/
def boxFilter9 (d : Dims) (rd : Nat → Except Fault Byte) (row col : Nat) : Except Fault Byte :=
  match sumReads (· / Config.tapDiv) rd (tapIndices d row col) with
  | .error e => .error e
  | .ok acc => .ok (BitVec.ofNat 8 acc)

/-- RoundSample: the filtered sample where scale < 1 and the coordinate is interior, else the source sample (R115). -/
def roundSample (d : Dims) (scale ow : Nat) (rd : Nat → Except Fault Byte) (j : Nat) : Except Fault Byte :=
  if scale < Config.scaleOne ∧ isInterior d (srcCoord ow scale j).1 (srcCoord ow scale j).2 then
    boxFilter9 d rd (srcCoord ow scale j).1 (srcCoord ow scale j).2
  else rd (srcIndex d (srcCoord ow scale j).1 (srcCoord ow scale j).2)

/-- The body of RESAMPLE: OUTW, OUTH, `RND.c[j] <- RoundSample(c, j)` for every j below OUTW * OUTH, and RESAMPLED. An
empty output writes no sample (R110, R119). -/
def resampleBody (s : State) : Except Fault State :=
  match readReg s.scale with
  | .error e => .error e
  | .ok a =>
    match fillPlanes s.dims.samples
        (fun c j => roundSample s.dims (zextArg a) (outDims s.dims (zextArg a)).1
          (fetchByte s.dims.samples (planeOf s.src c)) j)
        ((outDims s.dims (zextArg a)).1 * (outDims s.dims (zextArg a)).2) s.rnd with
    | .error e => .error e
    | .ok rnd => .ok (finishResample (outDims s.dims (zextArg a)).1 (outDims s.dims (zextArg a)).2 rnd s)

/-- RESAMPLE (R110). -/
def execResample (s : State) : Host.Outcome State Fault Refusal := guarded .resample resampleBody s

end Sys2Proof.Machine
end

