-- ==== Sys2Proof/Machine/Interleaver.lean ====
section
/-! DEFINITION. Unit rgb_interleaver, command PACK (46_rgb_interleaver.md R160-R162). -/

namespace Sys2Proof.Machine

/-- The channel at place `c` of an interleaved pixel, R,G,B (R41). -/
def channelAt (c : Nat) : Channel := if c = 0 then .r else if c = 1 then .g else .b

/-- PACKED as PACK writes it: PACKED[k] <- QNT.(k mod 3)[k // 3], that is PACKED[3j + c] <- QNT.c[j], for every k below
3 * `size` (R160, R161). -/
def packBytes (n size : Nat) (qnt : Planes) (packed : Memory) : Except Fault Memory :=
  fillMemory (Config.channels * n)
    (fun k => fetchByte n (planeOf qnt (channelAt (k % Config.channels))) (k / Config.channels))
    (Config.channels * size) packed

/-- The body of PACK (R160). -/
def packBody (s : State) : Except Fault State :=
  match newSize s with
  | .error e => .error e
  | .ok size =>
    match packBytes s.dims.samples size s.qnt s.packed with
    | .error e => .error e
    | .ok packed => .ok (finishPack packed s)

/-- PACK (R160). -/
def execPack (s : State) : Host.Outcome State Fault Refusal := guarded .pack packBody s

end Sys2Proof.Machine
end

