-- ==== Sys2Proof/Machine/Loader.lean ====
section
/-! DEFINITION. Unit planar_rgb_loader, command LOAD (41_planar_rgb_loader.md R90-R96). -/

namespace Sys2Proof.Machine

/-- The three planes as LOAD writes them: `SRC.c[i] <- PlaneByte(IN, c, i)` for i in 0..N-1 (R90, R92). -/
def loadPlanes (bytes : List Byte) (n : Nat) (src : Planes) : Except Fault Planes :=
  fillPlanes n (fun c i => .ok (planeByte bytes n c i)) n src

/-- The body of LOAD: ParamError before the stream is examined, IOError on an absent stream, else the planes, TRUNC and
LOADED. A short stream is no error, and bytes past 3 * N are not read (R90, R93-R95). -/
def loadBody (s : State) : Except Fault State :=
  if paramCheck s ≠ 0 then .ok (raise .paramError (paramInfo (paramCheck s)) s)
  else
    match s.input with
    | none => .ok (raise .ioError ioInfo s)
    | some bytes =>
      match loadPlanes bytes s.dims.samples s.src with
      | .error e => .error e
      | .ok src => .ok (finishLoad src (truncFlag bytes s.dims.samples) s)

/-- LOAD (R90). -/
def execLoad (s : State) : Host.Outcome State Fault Refusal := guarded .load loadBody s

end Sys2Proof.Machine
end

