-- ==== Sys2Proof/Machine/PivotResolution.lean ====
section
/-! DEFINITION. Support unit pivot resolution, command PIVOT (42_pivot_resolution.md R100-R104). -/

namespace Sys2Proof.Machine

/-- SampleIndices: the indices 0 ≤ i < N with i mod 100 = 0, the same in each plane (R102). -/
def sampleIndices (n : Nat) : List Nat := (List.range n).filter fun i => i % Config.stride = 0

/-- SampleCount = (N + 99) // 100 (R103). -/
def sampleCount (n : Nat) : Nat := (n + (Config.stride - 1)) / Config.stride

/-- The sum of the samples of one plane at the sample indices (R101). -/
def sumSamples (n : Nat) (m : Memory) : Except Fault Nat := sumReads id (fetchByte n m) (sampleIndices n)

/-- The strided mean over the three planes: a floor division by 3 * SampleCount (R101, R103). -/
def stridedMean (n : Nat) (src : Planes) : Except Fault Nat :=
  match sumSamples n src.r, sumSamples n src.g, sumSamples n src.b with
  | .ok r, .ok g, .ok b => .ok ((r + g + b) / (Config.channels * sampleCount n))
  | .error e, _, _ => .error e
  | _, .error e, _ => .error e
  | _, _, .error e => .error e

/-- ResolvePivot: MODE itself, passed through, or the strided mean when MODE = -2 (R101). -/
def resolvePivot (s : State) : Except Fault Int :=
  match readReg (modeInt s) with
  | .error e => .error e
  | .ok m =>
    if m ≠ -2 then .ok m
    else
      match stridedMean s.dims.samples s.src with
      | .error e => .error e
      | .ok p => .ok (p : Int)

/-- The body of PIVOT: `PIVOT <- ResolvePivot(); PHASE <- PIVOTED`. MODE is not changed (R100). -/
def pivotBody (s : State) : Except Fault State :=
  match resolvePivot s with
  | .error e => .error e
  | .ok p => .ok (finishPivot p s)

/-- PIVOT (R100). -/
def execPivot (s : State) : Host.Outcome State Fault Refusal := guarded .pivot pivotBody s

end Sys2Proof.Machine
end

