-- ==== Sys2Proof/Machine/Quantize.lean ====
section
/-! DEFINITION. What QUNI and QLOG share: `QNT.c[j] <- Q(RND.c[j])` for every output index (R130, R140). -/

namespace Sys2Proof.Machine

/-- The three quantised planes: each sample of RND through `q`, for every j below `size` (R130, R140). -/
def quantizePlanes (q : Byte → Byte) (cap size : Nat) (rnd qnt : Planes) : Except Fault Planes :=
  fillPlanes cap
    (fun c j =>
      match fetchByte cap (planeOf rnd c) j with
      | .error e => .error e
      | .ok v => .ok (q v))
    size qnt

/-- The loop of QUNI and QLOG, then PHASE <- QUANTIZED (R130, R140). -/
def quantizeBody (q : Byte → Byte) (s : State) : Except Fault State :=
  match newSize s with
  | .error e => .error e
  | .ok size =>
    match quantizePlanes q s.dims.samples size s.rnd s.qnt with
    | .error e => .error e
    | .ok qnt => .ok (finishQuantize qnt s)

end Sys2Proof.Machine
end

