-- ==== Sys2Proof/Machine/QuantLog.lean ====
section
/-! DEFINITION. Unit quantizer_logarithmic_pivot, command QLOG (45_quantizer_logarithmic_pivot.md R140-R155), in the exact
integer forms of R151 and R152. The real-number formulas R141-R148 stand in Safety.lean, for claims. -/

namespace Sys2Proof.Machine

/-- The greatest k ≤ bound with `ok k`, and 0 if there is none. -/
def greatestUpTo (ok : Nat → Bool) : Nat → Nat
  | 0 => 0
  | k + 1 => if ok (k + 1) then k + 1 else greatestUpTo ok k

/-- P1 = 1 + p (R151). -/
def pivotP1 (p : Nat) : Nat := 1 + p

/-- A = (1 + p)(256 - p) (R145, R151). -/
def pivotA (p : Nat) : Nat := (1 + p) * (256 - p)

/-- num of IdxExact (R151). -/
def idxNum (v p n : Nat) : Nat := if v > p then ((1 + v - p) * pivotP1 p) ^ n else pivotP1 p ^ n

/-- den of IdxExact (R151). -/
def idxDen (v p n : Nat) : Nat := if v > p then 1 else (1 + p - v) ^ n

/-- The quotient of R146, floored: the greatest k with A^k * den ≤ num. It is at most n (R146), so n bounds the search. -/
def idxQuotient (v p n : Nat) : Nat :=
  greatestUpTo (fun k => decide (pivotA p ^ k * idxDen v p n ≤ idxNum v p n)) n

/-- IdxExact: the interval index of v ≠ p, clamped to n - 1 (R146, R151). -/
def idxExact (v p n : Nat) : Nat := min (idxQuotient v p n) (n - 1)

/-- The rounded distance of the midpoint of interval `idx` from the pivot: r of ReconExact. The magnitude is at most 256,
which bounds the search (R148, R152). -/
def reconDistance (idx p n : Nat) : Int :=
  if pivotP1 p ^ (2 * n) ≤ pivotA p ^ (2 * idx + 1) then
    (greatestUpTo
      (fun m => decide (((2 * m + 1) * pivotP1 p) ^ (2 * n) ≤ 2 ^ (2 * n) * pivotA p ^ (2 * idx + 1))) 256 : Int)
  else
    -(greatestUpTo
      (fun m => decide ((2 * m + 1) ^ (2 * n) * pivotA p ^ (2 * idx + 1) ≤ (2 * pivotP1 p) ^ (2 * n))) 256 : Int)

/-- clamp(x, lo, hi) (R7). -/
def clampInt (x lo hi : Int) : Int := if x < lo then lo else if hi < x then hi else x

/-- ReconExact: p + r, clamped to 0..255 (R152). -/
def reconExact (idx p n : Nat) : Nat := (clampInt ((p : Int) + reconDistance idx p n) 0 255).toNat

/-- QuantLog(v, p, n): the pivot itself for v = p, else the reconstruction of the interval of v (R141, R142, R152). -/
def quantLog (v p n : Nat) : Nat := if v = p then p else reconExact (idxExact v p n) p n

/-- QuantLog on a byte of RND (R140). -/
def quantLogByte (p n : Nat) (v : Byte) : Byte := BitVec.ofNat 8 (quantLog v.toNat p n)

/-- The body of QLOG: the same pivot serves the three channels (R140). -/
def qlogBody (s : State) : Except Fault State :=
  match numInt s, pivotSample s with
  | .ok n, .ok p => quantizeBody (quantLogByte p n) s
  | .error e, _ => .error e
  | _, .error e => .error e

/-- QLOG (R140). -/
def execQlog (s : State) : Host.Outcome State Fault Refusal := guarded .qlog qlogBody s

end Sys2Proof.Machine
end

