-- ==== Sys2Proof/Machine/QuantUniform.lean ====
section
/-! DEFINITION. Unit quantizer_uniform_binning, command QUNI (44_quantizer_uniform_binning.md R130-R134). -/

namespace Sys2Proof.Machine

/-- QuantUniform(v, n): the midpoint of the bucket of v, with integer division throughout (R131). -/
def quantUniform (v n : Nat) : Nat := v / bitInt n * bitInt n + bitInt n / 2

/-- QuantUniform on a byte of RND (R130, R134). -/
def quantUniformByte (n : Nat) (v : Byte) : Byte := BitVec.ofNat 8 (quantUniform v.toNat n)

/-- The body of QUNI (R130). -/
def quniBody (s : State) : Except Fault State :=
  match numInt s with
  | .error e => .error e
  | .ok n => quantizeBody (quantUniformByte n) s

/-- QUNI (R130). -/
def execQuni (s : State) : Host.Outcome State Fault Refusal := guarded .quni quniBody s

end Sys2Proof.Machine
end

