-- ==== Sys2Proof/Machine/Run.lean ====
section
/-! DEFINITION. The whole pipeline in one command, RUN (47_run.md R170, R171). -/

namespace Sys2Proof.Machine

/-- One body after another; a fault ends the command, and so does an error that the first body raised (R170, R188). -/
def thenBody (first second : State → Except Fault State) (s : State) : Except Fault State :=
  match first s with
  | .error e => .error e
  | .ok t => if t.phase = .error then .ok t else second t

/-- The quantiser that MODE selects (R170). -/
def quantizerBody (s : State) : Except Fault State :=
  if modeInt s = some (-1) then quniBody s else qlogBody s

/-- The body of RUN: the bodies of LOAD, PIVOT, RESAMPLE, QUNI or QLOG, and PACK, without their dispatch checks (R170). -/
def runBody : State → Except Fault State :=
  thenBody loadBody (thenBody pivotBody (thenBody resampleBody (thenBody quantizerBody packBody)))

/-- RUN (R170). -/
def execRun (s : State) : Host.Outcome State Fault Refusal := guarded .run runBody s

end Sys2Proof.Machine
end

