-- ==== Sys2Proof/Machine/Dispatch.lean ====
section
/-! DEFINITION. One arm per command: the meaning it calls (30_encoding.md R63, R72). -/

namespace Sys2Proof.Machine

def exec (i : Instr) (s : State) : Host.Outcome State Fault Refusal :=
  match i with
  | .nop => Sys2Proof.Machine.execNop s
  | .setscale imm => Sys2Proof.Machine.execSetscale imm s
  | .setquant imm => Sys2Proof.Machine.execSetquant imm s
  | .setmode imm => Sys2Proof.Machine.execSetmode imm s
  | .load => Sys2Proof.Machine.execLoad s
  | .pivot => Sys2Proof.Machine.execPivot s
  | .resample => Sys2Proof.Machine.execResample s
  | .quni => Sys2Proof.Machine.execQuni s
  | .qlog => Sys2Proof.Machine.execQlog s
  | .pack => Sys2Proof.Machine.execPack s
  | .run => Sys2Proof.Machine.execRun s

end Sys2Proof.Machine
end

