-- ==== Sys2Proof/Machine/HostPort.lean ====
section
/-! DEFINITION. The command port, the status and result reads, and one action of the host (10_state.md R35; 30_encoding.md
R72; 70_reset_and_hazards.md R210-R217). -/

namespace Sys2Proof.Machine

/-- Exec(w, env): ignored in ERROR; an illegal word raises IllegalCommand with ERRINFO = the word; else the command it
decodes to (R64, R65, R72, R184, R187, R190). -/
def runWord (w : Word) (s : State) : Host.Outcome State Fault Refusal :=
  if s.phase = .error then .next s
  else
    match decode w with
    | .error _ => .next (raise .illegalCommand w s)
    | .ok i => exec i s

/-- What the host reads between commands; `none` for an unset register (R35). -/
structure Status where
  phase : BitVec 3
  err : BitVec 3
  errinfo : Word
  warn : BitVec 1
  pivot : Option Int
  outw : Option Nat
  outh : Option Nat
  deriving DecidableEq, Repr

/-- The status read (R35, R217). SCALE, QUANT, MODE, SRC, RND and QNT cannot be read. -/
def hostStatus (s : State) : Status where
  phase := phaseCode s.phase
  err := errValue s.err
  errinfo := s.errinfo
  warn := warnValue s
  pivot := s.pivot
  outw := s.outw
  outh := s.outh

/-- The result read: PACKED[k] for k < 3 * OUTW * OUTH, only while PHASE = DONE (R35, R214). -/
def hostResult (s : State) (k : Nat) : Except Refusal Byte :=
  if s.phase = .done then
    match s.outw, s.outh, Memory.read s.packed k with
    | some ow, some oh, some v => if k < Config.channels * (ow * oh) then .ok v else .error .resultReadOutOfRange
    | _, _, _ => .error .resultReadOutOfRange
  else .error .resultReadOutsideDone

/-- The host makes IN a byte sequence or absent (R29, R215, R217). -/
def supplyStream (stream : Option (List Byte)) (s : State) : State := { s with input := stream }

/-- One action of the host (R217). A read has no side effect (R44); a read the spec gives no value is refused (R214). -/
def takeAction (a : HostAction) (s : State) : Host.Outcome State Fault Refusal :=
  match a with
  | .reset => .next (resetEngine s)
  | .command w => runWord w s
  | .supply stream => .next (supplyStream stream s)
  | .readStatus => .next s
  | .readResult k =>
    match hostResult s k with
    | .ok _ => .next s
    | .error r => .refused r

/-- The state without the host's first action. -/
def withHost (rest : List HostAction) (s : State) : State := { s with host := rest }

/-- The host's next action takes effect; with none to come the engine is idle and keeps all its state (R72, R197, R216). -/
def hostStep (s : State) : Host.Outcome State Fault Refusal :=
  match s.host with
  | [] => .next s
  | a :: rest => takeAction a (withHost rest s)

end Sys2Proof.Machine
end

