-- ==== Sys2Proof/Machine/Step.lean ====
section
/-! DEFINITION. One step of the machine, and the placing of the next instruction. There is no program counter and no
fetch (10_state.md R31): the next instruction is the next word the host writes to the command port. -/

namespace Sys2Proof.Machine

/-- One step: the host's next action, atomically (R47, R72). -/
def step (s : State) : Host.Outcome State Fault Refusal := hostStep s

/-- `s` with the word as the host's next action, so that the very next step executes it. -/
def State.withFetchWord (s : State) (nbits w : Nat) : State :=
  withHost (.command (tableWord nbits w) :: s.host) s

end Sys2Proof.Machine
end

