-- ==== Sys2Proof/Machine/Assembler.lean ====
section
/-! DEFINITION. The assembler text and the pseudo-instructions (30_encoding.md R73, R74). Notation only: no step reads it. -/

namespace Sys2Proof.Machine

/-- Why a line is refused: an assembler error, not a command (R73). -/
inductive AsmError where
  /-- The line is neither a command nor a pseudo-instruction with its operands. -/
  | badLine
  /-- An operand that is no integer of the syntax. -/
  | badOperand
  /-- An operand outside its stated range. -/
  | operandOutOfRange
  deriving DecidableEq, Repr

/-- The four pseudo-instructions (R74). -/
inductive Pseudo where
  | config (u q : Nat) (s : Int)
  | setscaleRatio (a b : Nat)
  | pipelineUniform
  | pipelineLog
  deriving DecidableEq, Repr

/-- Each pseudo-instruction expands to these commands, in this order (R74). -/
def expand : Pseudo → List Instr
  | .config u q s => [.setscale u, .setquant q, .setmode s]
  | .setscaleRatio a b => [.setscale (a * Config.scaleOne / b)]
  | .pipelineUniform => [.load, .pivot, .resample, .quni, .pack]
  | .pipelineLog => [.load, .pivot, .resample, .qlog, .pack]

/-- The value of a digit below `base`. -/
def digitValue (base : Nat) (c : Char) : Option Nat :=
  let n := c.toNat
  let v := if 48 ≤ n ∧ n ≤ 57 then n - 48 else if 65 ≤ n ∧ n ≤ 70 then n - 55 else if 97 ≤ n ∧ n ≤ 102 then n - 87 else 16
  if v < base then some v else none

/-- The digits after the value `acc`. -/
def digitsValue (base : Nat) : Nat → List Char → Option Nat
  | acc, [] => some acc
  | acc, c :: cs =>
    match digitValue base c with
    | some d => digitsValue base (acc * base + d) cs
    | none => none

/-- At least one digit. -/
def parseNat (base : Nat) : List Char → Option Nat
  | [] => none
  | cs => digitsValue base 0 cs

/-- An operand: a decimal integer, optionally signed, or a hexadecimal integer with 0x (R73). -/
def parseInt : List Char → Option Int
  | '0' :: 'x' :: cs => (parseNat 16 cs).map Int.ofNat
  | '-' :: cs => (parseNat 10 cs).map fun n => -(n : Int)
  | '+' :: cs => (parseNat 10 cs).map Int.ofNat
  | cs => (parseNat 10 cs).map Int.ofNat

/-- An operand that is not negative. -/
def parseUnsigned (cs : List Char) : Except AsmError Nat :=
  match parseInt cs with
  | some (.ofNat n) => .ok n
  | some (.negSucc _) => .error .operandOutOfRange
  | none => .error .badOperand

/-- An operand of either sign. -/
def parseSigned (cs : List Char) : Except AsmError Int :=
  match parseInt cs with
  | some n => .ok n
  | none => .error .badOperand

/-- The characters before `#`, which starts a comment (R73). -/
def dropComment : List Char → List Char
  | [] => []
  | c :: cs => if c = '#' then [] else c :: dropComment cs

/-- The tokens of a line: runs of other characters, and the separators `,` and `/` each by itself. `word` holds the run
read so far. -/
def tokens : List Char → List Char → List (List Char)
  | word, [] => if word.isEmpty then [] else [word]
  | word, c :: cs =>
    if c = ' ' ∨ c = '\t' ∨ c = '\r' then (if word.isEmpty then [] else [word]) ++ tokens [] cs
    else if c = ',' ∨ c = '/' then (if word.isEmpty then [] else [word]) ++ [c] :: tokens [] cs
    else tokens (word ++ [c]) cs

/-- A command whose operand must fit its field (R73). -/
def checked (is : List Instr) : Except AsmError (List Instr) :=
  if is.all Instr.wellFormed then .ok is else .error .operandOutOfRange

/-- The commands and pseudo-instructions without an operand (R73, R74). -/
def plainMnemonics : List (List Char × List Instr) :=
  [("NOP".toList, [.nop]), ("LOAD".toList, [.load]), ("PIVOT".toList, [.pivot]), ("RESAMPLE".toList, [.resample]),
   ("QUNI".toList, [.quni]), ("QLOG".toList, [.qlog]), ("PACK".toList, [.pack]), ("RUN".toList, [.run]),
   ("PIPELINE.U".toList, expand .pipelineUniform), ("PIPELINE.L".toList, expand .pipelineLog)]

/-- One operand: SETSCALE u, SETQUANT u, SETMODE s (R73). -/
def assembleUnary (mn x : List Char) : Except AsmError (List Instr) :=
  if mn = "SETSCALE".toList then (parseUnsigned x).bind fun u => checked [.setscale u]
  else if mn = "SETQUANT".toList then (parseUnsigned x).bind fun u => checked [.setquant u]
  else if mn = "SETMODE".toList then (parseSigned x).bind fun s => checked [.setmode s]
  else .error .badLine

/-- SETSCALE.R a/b with a ≥ 0 and b > 0 (R74). -/
def assembleRatio (x y : List Char) : Except AsmError (List Instr) :=
  (parseUnsigned x).bind fun a => (parseUnsigned y).bind fun b =>
    if b = 0 then .error .operandOutOfRange else checked (expand (.setscaleRatio a b))

/-- CONFIG u, q, s (R74). -/
def assembleConfig (x y z : List Char) : Except AsmError (List Instr) :=
  (parseUnsigned x).bind fun u => (parseUnsigned y).bind fun q => (parseSigned z).bind fun s =>
    checked (expand (.config u q s))

/-- The commands of one line; an empty line or a comment has none (R73, R74). -/
def assembleLine (line : List Char) : Except AsmError (List Instr) :=
  match tokens [] (dropComment line) with
  | [] => .ok []
  | [mn] =>
    match plainMnemonics.lookup mn with
    | some is => .ok is
    | none => .error .badLine
  | [mn, x] => assembleUnary mn x
  | [mn, x, ['/'], y] => if mn = "SETSCALE.R".toList then assembleRatio x y else .error .badLine
  | [mn, x, [','], y, [','], z] => if mn = "CONFIG".toList then assembleConfig x y z else .error .badLine
  | _ => .error .badLine

/-- The lines of a text, without their line ends. `line` holds the line read so far. -/
def linesOf : List Char → List Char → List (List Char)
  | line, [] => [line]
  | line, c :: cs => if c = '\n' then line :: linesOf [] cs else linesOf (line ++ [c]) cs

/-- The command words of a text, one command per line (R73). -/
def assemble (text : String) : Except AsmError (List Word) :=
  ((linesOf [] text.toList).mapM assembleLine).map fun is => is.flatten.map encode

end Sys2Proof.Machine
end

