-- ==== Sys2Proof/Safety.lean ====
section
/-! DEFINITION. The terms claims use: what the memories mean as sample values, the source's formulas over the integers and
over the real numbers, the end of a run, and the invariant of the machine. Nothing here is run by the machine. -/

namespace Sys2Proof.Machine

/-! ### Sample values -/

/-- The sample at index `i` of a memory, as the integer 0..255 it is (R45); 0 where nothing is written. -/
def sampleAt (m : Memory) (i : Nat) : Nat := ((Memory.read m i).getD 0).toNat

/-- SCALE as the integer it is; 0 where unset. -/
def scaleNat (s : State) : Nat := (s.scale.map zextArg).getD 0

/-- QUANT as the integer it is; 0 where unset. -/
def quantNat (s : State) : Nat := (s.quant.map zextArg).getD 0

/-- OUTW * OUTH for a state whose parameters are legal (R111). -/
def outSize (s : State) : Nat := (outDims s.dims (scaleNat s)).1 * (outDims s.dims (scaleNat s)).2

/-- The sample of plane `c` at stream position c * N + i, 0 past the end (R41, R93). -/
def streamSample (bytes : List Byte) (n : Nat) (c : Channel) (i : Nat) : Nat :=
  ((bytes[channelIndex c * n + i]?).getD 0).toNat

/-- The auto-pivot mean of a planar image given by its samples (R101-R103). -/
def meanOf (n : Nat) (px : Channel → Nat → Nat) : Nat :=
  (((List.range n).filter (fun i => i % 100 = 0)).map (fun i => px .r i + px .g i + px .b i)).sum /
    (3 * ((n + 99) / 100))

/-- PIVOT after resolution, for MODE = m (R101). -/
def pivotOf (n : Nat) (m : Int) (px : Channel → Nat → Nat) : Int := if m = -2 then (meanOf n px : Int) else m

/-- The resampled sample of output index j, from the samples of one plane: nine per-tap floors where SCALE < 65536 and the
coordinate is interior, else the source sample (R112-R115). -/
def roundOf (d : Dims) (scale : Nat) (px : Nat → Nat) (j : Nat) : Nat :=
  let ow := d.w * scale / 65536
  let row := j / ow * 65536 / scale
  let col := j % ow * 65536 / scale
  if scale < 65536 ∧ 1 ≤ row ∧ row + 2 ≤ d.h ∧ 1 ≤ col ∧ col + 2 ≤ d.w then
    px ((row - 1) * d.w + (col - 1)) / 9 + px ((row - 1) * d.w + col) / 9 + px ((row - 1) * d.w + (col + 1)) / 9 +
    px (row * d.w + (col - 1)) / 9 + px (row * d.w + col) / 9 + px (row * d.w + (col + 1)) / 9 +
    px ((row + 1) * d.w + (col - 1)) / 9 + px ((row + 1) * d.w + col) / 9 + px ((row + 1) * d.w + (col + 1)) / 9
  else px (row * d.w + col)

/-- The quantised sample, for MODE = m and PIVOT = p (R130, R140). -/
def quantOf (m p : Int) (n v : Nat) : Nat := if m = -1 then quantUniform v n else quantLog v p.toNat n

/-! ### The logarithmic quantiser over the real numbers (R141-R148), base b -/

/-- logScale(v) = sign(v - p) * log_b(1 + |v - p|) (R143). -/
noncomputable def logScale (b : ℝ) (v p : Nat) : ℝ :=
  Real.sign ((v : ℝ) - p) * Real.logb b (1 + |(v : ℝ) - p|)

/-- intervalSize = (logMax - logMin) / n (R144, R145). -/
noncomputable def intervalSize (b : ℝ) (p n : Nat) : ℝ := (logScale b 255 p - logScale b 0 p) / n

/-- intervalIndex, the clamped floor of R146. -/
noncomputable def intervalIndex (b : ℝ) (v p n : Nat) : Int :=
  clampInt ⌊(logScale b v p - logScale b 0 p) / intervalSize b p n⌋ 0 (n - 1)

/-- quantizedLogValue, the midpoint in log space (R147). -/
noncomputable def quantizedLogValue (b : ℝ) (v p n : Nat) : ℝ :=
  logScale b 0 p + ((intervalIndex b v p n : ℝ) + 1 / 2) * intervalSize b p n

/-- distance, the inversion of R148. -/
noncomputable def logDistance (b : ℝ) (v p n : Nat) : ℝ :=
  if 0 ≤ quantizedLogValue b v p n then b ^ quantizedLogValue b v p n - 1
  else -(b ^ (-quantizedLogValue b v p n) - 1)

/-- Rounding to the nearest integer, halves away from zero (R148). -/
noncomputable def roundAway (x : ℝ) : Int := if 0 ≤ x then ⌊x + 1 / 2⌋ else -⌊-x + 1 / 2⌋

/-- QuantLog as the source's formulas give it (R141). -/
noncomputable def quantLogReal (b : ℝ) (v p n : Nat) : Int :=
  if v = p then p else clampInt ((p : Int) + roundAway (logDistance b v p n)) 0 255

/-! ### The end of a run (R218) -/

/-- A run that has ended successfully. -/
abbrev succeeded (s : State) : Prop := s.phase = .done

/-- A run that has ended in failure. -/
abbrev failed (s : State) : Prop := s.phase = .error

/-- The words of the staged sequence for a state's MODE: LOAD, PIVOT, RESAMPLE, QUNI or QLOG, PACK (R171). -/
def stagedWords (s : State) : List Word :=
  [0x10000000, 0x11000000, 0x12000000, if modeInt s = some (-1) then 0x13000000 else 0x14000000, 0x15000000]

/-- Words executed one after another, stopping at the first fault or refusal (R72). -/
def runWords : List Word → State → Host.Outcome State Fault Refusal
  | [], s => .next s
  | w :: ws, s =>
    match runWord w s with
    | .next t => runWords ws t
    | .fault e => .fault e
    | .refused r => .refused r

/-! ### The invariant -/

/-- The number of a phase in the order of the stages; ERROR comes after all (R20). -/
def rank (p : Phase) : Nat := (phaseCode p).toNat

/-- Stage `k` has completed and no error has been raised. -/
abbrev reached (k : Nat) (s : State) : Prop := k ≤ rank s.phase ∧ s.phase ≠ .error

/-- Stage `k` has not completed and no error has been raised. -/
abbrev before (k : Nat) (s : State) : Prop := rank s.phase < k

/-- Every memory is in canonical form and within its capacity (R40). -/
abbrev memoriesOk (s : State) : Prop :=
  (Planes.wf s.src ∧ Planes.within s.src s.dims.samples) ∧
  (Planes.wf s.rnd ∧ Planes.within s.rnd s.dims.samples) ∧
  (Planes.wf s.qnt ∧ Planes.within s.qnt s.dims.samples) ∧
  (Memory.wf s.packed ∧ Memory.within s.packed (3 * s.dims.samples))

/-- ERR ≠ 0 exactly when PHASE = ERROR, and ERRINFO is what R22 says it holds. -/
abbrev errorsOk (s : State) : Prop :=
  (s.err = .none ↔ s.phase ≠ .error) ∧
  (s.err = .none → s.errinfo = 0) ∧
  (s.err = .paramError → 1 ≤ s.errinfo.toNat ∧ s.errinfo.toNat ≤ 7) ∧
  (s.err = .ioError → s.errinfo = 0)

/-- PIVOT, OUTW and OUTH hold values of their formats (R18, R19). -/
abbrev registersOk (s : State) : Prop :=
  (∀ p ∈ s.pivot, -1 ≤ p ∧ p ≤ 255) ∧ (∀ w ∈ s.outw, w ≤ s.dims.w) ∧ (∀ h ∈ s.outh, h ≤ s.dims.h)

/-- What a stage leaves is there from its phase on (R20, R91, R104). -/
abbrev stagesDone (s : State) : Prop :=
  (reached 1 s → paramCheck s = 0 ∧ Planes.filled s.src s.dims.samples) ∧
  (reached 2 s → s.pivot.isSome = true ∧
    ∀ m ∈ modeInt s, ∀ p ∈ s.pivot, (m ≠ -2 → p = m) ∧ (m = -2 → 0 ≤ p)) ∧
  (reached 3 s → s.outw = some (outDims s.dims (scaleNat s)).1 ∧ s.outh = some (outDims s.dims (scaleNat s)).2 ∧
    Planes.filled s.rnd (outSize s)) ∧
  (reached 4 s → Planes.filled s.qnt (outSize s)) ∧
  (reached 5 s → Memory.filled s.packed (3 * outSize s))

/-- What a stage leaves is not there before its phase (R14, R36). -/
abbrev stagesAhead (s : State) : Prop :=
  (before 1 s → s.trunc = false ∧ s.src = Planes.unwritten) ∧
  (before 2 s → s.pivot = none) ∧
  (before 3 s → s.outw = none ∧ s.outh = none ∧ s.rnd = Planes.unwritten) ∧
  (before 4 s → s.qnt = Planes.unwritten) ∧
  (before 5 s → s.packed = [])

/-- The invariant of the machine: it holds at reset and every step keeps it. -/
structure Inv (s : State) : Prop where
  dimsOk : 1 ≤ s.dims.w ∧ 1 ≤ s.dims.h
  memories : memoriesOk s
  errors : errorsOk s
  registers : registersOk s
  done : stagesDone s
  ahead : stagesAhead s

/-- What the memories hold is what the rules compute from SRC and the parameters: PIVOT (R101), RND (R115), QNT (R131,
R141) and PACKED (R160). -/
def contentsOk (s : State) : Prop :=
  (reached 2 s → ∀ m ∈ modeInt s, s.pivot = some (pivotOf s.dims.samples m fun c => sampleAt (planeOf s.src c))) ∧
  (reached 3 s → ∀ c, ∀ j < outSize s,
    sampleAt (planeOf s.rnd c) j = roundOf s.dims (scaleNat s) (sampleAt (planeOf s.src c)) j) ∧
  (reached 4 s → ∀ m ∈ modeInt s, ∀ p ∈ s.pivot, ∀ c, ∀ j < outSize s,
    sampleAt (planeOf s.qnt c) j = quantOf m p (2 ^ quantNat s) (sampleAt (planeOf s.rnd c) j)) ∧
  (reached 5 s → ∀ c, ∀ j < outSize s,
    sampleAt s.packed (3 * j + channelIndex c) = sampleAt (planeOf s.qnt c) j)

end Sys2Proof.Machine
end

