-- ==== Sys2Proof/Certificates/Slice0/Obligations.lean ====
section
/-! DEFINITION. The statements for the provers. Each docstring names the rule of spec/ it formalises;
"log n" is notes/assumptions/n.md, a choice of the model. -/

open Sys2Proof Sys2Proof.Machine

/-! ### Encoding -/

/-- Decoding the word of a well-formed command gives the command back, for every operand the encoding admits (R62, R63). -/
def Obligations.DecodeOfEncode : Prop :=
  ∀ i : Instr, i.wellFormed = true → decode (encode i) = .ok i

/-- Decode is total; what it gives is well-formed and encodes to the same word, so it is injective on legal words (R68). -/
def Obligations.DecodeInjectiveOnLegalWords : Prop :=
  (∀ w, (∃ e, decode w = .error e) ∨ ∃ i, decode w = .ok i ∧ i.wellFormed = true ∧ encode i = w) ∧
  ∀ w₁ w₂ i, decode w₁ = .ok i → decode w₂ = .ok i → w₁ = w₂

/-- A word is a command exactly when (w AND mask) = match, row by row of the opcode map (R63). -/
def Obligations.OpcodeMapIsMaskAndMatch : Prop :=
  ∀ w : Word,
    (decode w = .ok .nop ↔ w &&& 0xFFFFFFFF = 0x00000000) ∧
    ((∃ imm, decode w = .ok (.setscale imm)) ↔ w &&& 0xFF000000 = 0x01000000) ∧
    ((∃ imm, decode w = .ok (.setquant imm)) ↔ w &&& 0xFF000000 = 0x02000000) ∧
    ((∃ imm, decode w = .ok (.setmode imm)) ↔ w &&& 0xFF000000 = 0x03000000) ∧
    (decode w = .ok .load ↔ w &&& 0xFFFFFFFF = 0x10000000) ∧
    (decode w = .ok .pivot ↔ w &&& 0xFFFFFFFF = 0x11000000) ∧
    (decode w = .ok .resample ↔ w &&& 0xFFFFFFFF = 0x12000000) ∧
    (decode w = .ok .quni ↔ w &&& 0xFFFFFFFF = 0x13000000) ∧
    (decode w = .ok .qlog ↔ w &&& 0xFFFFFFFF = 0x14000000) ∧
    (decode w = .ok .pack ↔ w &&& 0xFFFFFFFF = 0x15000000) ∧
    (decode w = .ok .run ↔ w &&& 0xFFFFFFFF = 0x1F000000)

/-- The immediate is the field w[23:0], used whole: unsigned for SETSCALE and SETQUANT, two's complement for SETMODE
(R62). -/
def Obligations.ImmediateIsTheWholeArgField : Prop :=
  ∀ w : Word,
    (∀ imm, decode w = .ok (.setscale imm) → imm = w.toNat % 2 ^ 24) ∧
    (∀ imm, decode w = .ok (.setquant imm) → imm = w.toNat % 2 ^ 24) ∧
    (∀ imm, decode w = .ok (.setmode imm) →
      imm = if w.toNat % 2 ^ 24 < 2 ^ 23 then ((w.toNat % 2 ^ 24 : Nat) : Int) else (w.toNat % 2 ^ 24 : Nat) - 2 ^ 24)

/-- Words written out from the encodings of the spec decode to the commands they stand for (95 V-ENC). -/
def Obligations.SpecWordsDecode : Prop :=
  decode 0x01008000 = .ok (.setscale 32768) ∧ decode 0x02000009 = .ok (.setquant 9) ∧
  decode 0x03FFFFFE = .ok (.setmode (-2)) ∧ decode 0x03800000 = .ok (.setmode (-8388608)) ∧
  decode 0x12000000 = .ok .resample ∧ decode 0x1F000000 = .ok .run ∧
  decode 0x10000001 = .error .nonzeroArgument ∧ decode 0x16000000 = .error .reservedOpcode

/-- The four pseudo-instructions expand to the commands of rule R74, for every operand; one text with every command, one
with each pseudo-instruction, and the three ratios of R74 assemble to their words; and an operand just outside its range is
an error, for each of the three (R73, R74). The treatment of white space and empty lines in a text is the model's (log
18). -/
def Obligations.AssemblerWords : Prop :=
  (∀ u q s, expand (.config u q s) = [.setscale u, .setquant q, .setmode s]) ∧
  (∀ a b, 0 < b → expand (.setscaleRatio a b) = [.setscale (a * 65536 / b)]) ∧
  expand .pipelineUniform = [.load, .pivot, .resample, .quni, .pack] ∧
  expand .pipelineLog = [.load, .pivot, .resample, .qlog, .pack] ∧
  (assemble "NOP\nSETSCALE 0x8000\nSETQUANT 9\nSETMODE -2 # auto\nLOAD\nPIVOT\nRESAMPLE\nQUNI\nQLOG\nPACK\nRUN").toOption =
    some [0x00000000, 0x01008000, 0x02000009, 0x03FFFFFE, 0x10000000, 0x11000000, 0x12000000, 0x13000000, 0x14000000,
      0x15000000, 0x1F000000] ∧
  (assemble "CONFIG 65536, 8, -1").toOption = some [0x01010000, 0x02000008, 0x03FFFFFF] ∧
  (assemble "PIPELINE.U").toOption = some [0x10000000, 0x11000000, 0x12000000, 0x13000000, 0x15000000] ∧
  (assemble "PIPELINE.L").toOption = some [0x10000000, 0x11000000, 0x12000000, 0x14000000, 0x15000000] ∧
  (assemble "SETSCALE.R 1/2\nSETSCALE.R 1/1\nSETSCALE.R 3/10").toOption = some [0x01008000, 0x01010000, 0x01004CCC] ∧
  assemble "SETSCALE 16777216" = .error .operandOutOfRange ∧ assemble "SETQUANT 16777216" = .error .operandOutOfRange ∧
  assemble "SETMODE 8388608" = .error .operandOutOfRange ∧ assemble "SETMODE -8388609" = .error .operandOutOfRange

/-! ### The step, dispatch and errors -/

/-- A word on the port is executed by the step, which for a word that decodes to a command is that command's execution, and
`withFetchWord` puts a word there (R72). The list of the host's coming actions is the model's (log 2). -/
def Obligations.StepRunsTheDecodedCommand : Prop :=
  (∀ (s : State) (w : Word) (rest : List HostAction), s.host = .command w :: rest →
    step s = runWord w (withHost rest s) ∧ ∀ i, decode w = .ok i → step s = exec i (withHost rest s)) ∧
  ∀ (s : State) (nbits w : Nat) (i : Instr), decodeTableWord nbits w = some i →
    step (s.withFetchWord nbits w) = exec i s

/-- The other actions of the host: RST, the stream, and the reads, which change nothing; with no action to come the engine
keeps all its state (R217, R197). The list of the host's coming actions and the field for IN are the model's (log 2,
3, 4). -/
def Obligations.StepTakesTheHostAction : Prop :=
  ∀ (s : State) (rest : List HostAction),
    (s.host = [] → step s = .next s) ∧
    (s.host = .reset :: rest → step s = .next (resetEngine (withHost rest s))) ∧
    (∀ x, s.host = .supply x :: rest → step s = .next { s with host := rest, input := x }) ∧
    (s.host = .readStatus :: rest → step s = .next { s with host := rest }) ∧
    (∀ k v, s.host = .readResult k :: rest → hostResult s k = .ok v → step s = .next { s with host := rest })

/-- A word whose OPC is none of the eleven raises IllegalCommand with ERRINFO = the word, and is ignored in ERROR (R64). -/
def Obligations.ReservedOpcodeRaisesIllegalCommand : Prop :=
  ∀ (s : State) (w : Word),
    w.toNat / 2 ^ 24 ∉ [0x00, 0x01, 0x02, 0x03, 0x10, 0x11, 0x12, 0x13, 0x14, 0x15, 0x1F] →
    (s.phase ≠ .error → runWord w s = .next { s with err := .illegalCommand, errinfo := w, phase := .error }) ∧
    (s.phase = .error → runWord w s = .next s)

/-- A Z-format word with ARG ≠ 0 raises IllegalCommand with ERRINFO = the word, as a reserved code does (R65). -/
def Obligations.NonzeroArgumentRaisesIllegalCommand : Prop :=
  ∀ (s : State) (w : Word),
    w.toNat / 2 ^ 24 ∈ [0x00, 0x10, 0x11, 0x12, 0x13, 0x14, 0x15, 0x1F] → w.toNat % 2 ^ 24 ≠ 0 →
    (s.phase ≠ .error → runWord w s = .next { s with err := .illegalCommand, errinfo := w, phase := .error }) ∧
    (s.phase = .error → runWord w s = .next s)

/-- `raise E(info)` writes ERR, ERRINFO and PHASE = ERROR and nothing else; the codes are 1 to 4, and PHASE is 7 (R188). -/
def Obligations.RaiseWritesThreeRegisters : Prop :=
  (∀ (e : ErrCode) (info : Word) (s : State), raise e info s = { s with err := e, errinfo := info, phase := .error }) ∧
  errValue .paramError = 1 ∧ errValue .ioError = 2 ∧ errValue .sequenceError = 3 ∧ errValue .illegalCommand = 4 ∧
  phaseCode .error = 7

/-- A command outside its legal phase, or a quantiser that MODE does not select, raises SequenceError with ERRINFO = the
word; NOP never raises it (R183). -/
def Obligations.SequenceErrorOutsideTheLegalPhase : Prop :=
  ∀ s : State, s.phase ≠ .error →
    (∀ u, s.phase ≠ .idle → exec (.setscale u) s = .next (raise .sequenceError (encode (.setscale u)) s)) ∧
    (∀ u, s.phase ≠ .idle → exec (.setquant u) s = .next (raise .sequenceError (encode (.setquant u)) s)) ∧
    (∀ m, s.phase ≠ .idle → exec (.setmode m) s = .next (raise .sequenceError (encode (.setmode m)) s)) ∧
    (s.phase ≠ .idle → exec .load s = .next (raise .sequenceError 0x10000000 s)) ∧
    (s.phase ≠ .loaded → exec .pivot s = .next (raise .sequenceError 0x11000000 s)) ∧
    (s.phase ≠ .pivoted → exec .resample s = .next (raise .sequenceError 0x12000000 s)) ∧
    (s.phase ≠ .resampled ∨ modeInt s ≠ some (-1) → exec .quni s = .next (raise .sequenceError 0x13000000 s)) ∧
    (s.phase ≠ .resampled ∨ modeInt s = some (-1) → exec .qlog s = .next (raise .sequenceError 0x14000000 s)) ∧
    (s.phase ≠ .quantized → exec .pack s = .next (raise .sequenceError 0x15000000 s)) ∧
    (s.phase ≠ .idle → exec .run s = .next (raise .sequenceError 0x1F000000 s)) ∧
    exec .nop s = .next s

/-- In ERROR every word is ignored: it changes no state and raises nothing; ERROR is no successful end (R190). -/
def Obligations.ErrorIsSticky : Prop :=
  ∀ s : State, s.phase = .error →
    (∀ w, runWord w s = .next s) ∧ (∀ i, exec i s = .next s) ∧ ¬succeeded s

/-- A command or an illegal word that ends in ERROR from another phase has changed ERR, ERRINFO and PHASE only: errors
are precise (R189). -/
def Obligations.ErrorsArePrecise : Prop :=
  ∀ s t : State, s.phase ≠ .error → t.phase = .error → (∃ i, exec i s = .next t) ∨ (∃ w, runWord w s = .next t) →
    t = { s with err := t.err, errinfo := t.errinfo, phase := .error }

/-- Bits 0, 1 and 2 of the mask say that SCALE, QUANT and MODE are unset or illegal, and outside IDLE no command changes
the three parameters (R91). -/
def Obligations.ParamCheckMask : Prop :=
  (∀ s : State,
    ((paramCheck s).getLsbD 0 = true ↔ ¬∃ a, s.scale = some a ∧ 1 ≤ a.toNat ∧ a.toNat ≤ 65536) ∧
    ((paramCheck s).getLsbD 1 = true ↔ ¬∃ a, s.quant = some a ∧ 1 ≤ a.toNat ∧ a.toNat ≤ 8) ∧
    ((paramCheck s).getLsbD 2 = true ↔ ¬∃ a, s.mode = some a ∧ -2 ≤ a.toInt ∧ a.toInt ≤ 255)) ∧
  ∀ (i : Instr) (s t : State), exec i s = .next t → s.phase ≠ .idle →
    t.scale = s.scale ∧ t.quant = s.quant ∧ t.mode = s.mode

/-- LOAD and RUN with a bad parameter raise ParamError with the mask as ERRINFO, whatever the stream (R181). -/
def Obligations.BadParametersRaiseParamError : Prop :=
  ∀ s : State, s.phase = .idle → paramCheck s ≠ 0 →
    exec .load s = .next (raise .paramError ((paramCheck s).setWidth 32) s) ∧
    exec .run s = .next (raise .paramError ((paramCheck s).setWidth 32) s)

/-- LOAD and RUN with legal parameters and no stream raise IOError with ERRINFO = 0 (R182, R95). -/
def Obligations.AbsentStreamRaisesIOError : Prop :=
  ∀ s : State, s.phase = .idle → paramCheck s = 0 → s.input = none →
    exec .load s = .next (raise .ioError 0 s) ∧ exec .run s = .next (raise .ioError 0 s)

/-! ### The configuration commands -/

/-- NOP: no effect in any phase, and the word 0x00000000 is the only NOP (R80). -/
def Obligations.NopChangesNothing : Prop :=
  (∀ s : State, exec .nop s = .next s) ∧ ∀ w : Word, decode w = .ok .nop ↔ w = 0

/-- SETSCALE imm in IDLE stores imm, any 24-bit value, and changes nothing else; elsewhere SequenceError (R81). -/
def Obligations.SetscaleStoresItsImmediate : Prop :=
  ∀ (imm : Nat) (s : State), imm < 2 ^ 24 →
    (encode (.setscale imm)).toNat = 0x01000000 + imm ∧
    (s.phase = .idle → ∃ a : Arg, a.toNat = imm ∧ exec (.setscale imm) s = .next { s with scale := some a }) ∧
    (s.phase ≠ .idle → s.phase ≠ .error →
      exec (.setscale imm) s = .next (raise .sequenceError (encode (.setscale imm)) s))

/-- SETQUANT imm in IDLE stores imm, any 24-bit value, and changes nothing else; elsewhere SequenceError (R82). -/
def Obligations.SetquantStoresItsImmediate : Prop :=
  ∀ (imm : Nat) (s : State), imm < 2 ^ 24 →
    (encode (.setquant imm)).toNat = 0x02000000 + imm ∧
    (s.phase = .idle → ∃ a : Arg, a.toNat = imm ∧ exec (.setquant imm) s = .next { s with quant := some a }) ∧
    (s.phase ≠ .idle → s.phase ≠ .error →
      exec (.setquant imm) s = .next (raise .sequenceError (encode (.setquant imm)) s))

/-- SETMODE imm in IDLE stores imm as the signed integer it is and changes nothing else, PIVOT included; elsewhere
SequenceError (R83). -/
def Obligations.SetmodeStoresItsImmediate : Prop :=
  ∀ (imm : Int) (s : State), -2 ^ 23 ≤ imm → imm < 2 ^ 23 →
    ((encode (.setmode imm)).toNat : Int) = 0x03000000 + imm % 2 ^ 24 ∧
    (s.phase = .idle → ∃ a : Arg, a.toInt = imm ∧ exec (.setmode imm) s = .next { s with mode := some a }) ∧
    (s.phase ≠ .idle → s.phase ≠ .error →
      exec (.setmode imm) s = .next (raise .sequenceError (encode (.setmode imm)) s))

/-! ### LOAD -/

/-- LOAD with legal parameters and a stream: SRC.c[i] is stream byte c * N + i, 0 past the end; TRUNC says whether the
stream was short; PHASE is LOADED; every other location and register is as before (R90, R92, R93). That IN is still there
afterwards is the model's (log 3). -/
def Obligations.LoadFillsThePlanes : Prop :=
  ∀ (s : State) (bytes : List Byte), s.phase = .idle → paramCheck s = 0 → s.input = some bytes →
    ∃ t, exec .load s = .next t ∧
      (∀ c, ∀ i < s.dims.samples, Memory.read (planeOf t.src c) i =
        some ((bytes[channelIndex c * s.dims.samples + i]?).getD 0)) ∧
      (∀ c i, s.dims.samples ≤ i → Memory.read (planeOf t.src c) i = Memory.read (planeOf s.src c) i) ∧
      (t.trunc = true ↔ bytes.length < 3 * s.dims.samples) ∧
      t = { s with src := t.src, trunc := t.trunc, phase := .loaded }

/-- Bytes at positions 3 * N and beyond have no effect, and TRUNC is then clear (R94). That IN is still there afterwards is
the model's (log 3). -/
def Obligations.BytesBeyondThePlanesAreNotRead : Prop :=
  ∀ (s : State) (bytes extra : List Byte), s.phase = .idle → paramCheck s = 0 → 3 * s.dims.samples ≤ bytes.length →
    ∃ t, exec .load { s with input := some bytes } = .next t ∧ t.trunc = false ∧
      exec .load { s with input := some (bytes ++ extra) } = .next { t with input := some (bytes ++ extra) }

/-- No command but LOAD and RUN reads the stream (R29, R40). IN as a field of the state is the model's (log 3). -/
def Obligations.OnlyLoadAndRunReadTheStream : Prop :=
  ∀ (i : Instr) (s t : State) (x : Option (List Byte)), i ≠ .load → i ≠ .run → exec i s = .next t →
    exec i { s with input := x } = .next { t with input := x }

/-! ### PIVOT -/

/-- PIVOT with MODE ≠ -2 passes MODE through; the next phase is PIVOTED and nothing else changes (R101). -/
def Obligations.PivotPassesModeThrough : Prop :=
  ∀ (s : State) (a : Arg), s.phase = .loaded → s.mode = some a → a.toInt ≠ -2 →
    exec .pivot s = .next { s with pivot := some a.toInt, phase := .pivoted }

/-- PIVOT with MODE = -2 writes the floor of the mean of the samples at indices 0, 100, 200, ... of the three planes;
nothing else changes, MODE included (R101). -/
def Obligations.PivotIsTheStridedMean : Prop :=
  ∀ (s : State) (a : Arg), s.phase = .loaded → s.mode = some a → a.toInt = -2 →
    Planes.filled s.src s.dims.samples →
    exec .pivot s = .next
      { s with pivot := some (meanOf s.dims.samples (fun c => sampleAt (planeOf s.src c)) : Int), phase := .pivoted }

/-- SampleIndices is the set of i < N with i mod 100 = 0, index 0 is always a member (R102), and SampleCount =
(N + 99) // 100 is the number of its members (R103). -/
def Obligations.SampleCountCountsTheIndices : Prop :=
  ∀ n : Nat, (∀ i, i ∈ sampleIndices n ↔ i < n ∧ i % 100 = 0) ∧ (1 ≤ n → 0 ∈ sampleIndices n) ∧
    (sampleIndices n).Nodup ∧ (sampleIndices n).length = sampleCount n ∧ sampleCount n = (n + 99) / 100

/-- After PIVOT, PIVOT is -1 exactly when MODE = -1 and otherwise 0..255; when every sampled value is v, the result for
MODE = -2 is v (R104). -/
def Obligations.PivotRange : Prop :=
  (∀ s t : State, Inv s → s.phase = .loaded → exec .pivot s = .next t →
    ∃ p, t.pivot = some p ∧ (p = -1 ↔ modeInt s = some (-1)) ∧ (p ≠ -1 → 0 ≤ p ∧ p ≤ 255)) ∧
  ∀ (n v : Nat) (px : Channel → Nat → Nat), 1 ≤ n → (∀ c, ∀ i < n, i % 100 = 0 → px c i = v) → meanOf n px = v

/-! ### RESAMPLE -/

/-- RESAMPLE: OUTW and OUTH are the two floors, RND.c[j] is the filtered or raw sample of rule R115 for every j below
OUTW * OUTH, PHASE is RESAMPLED, and every other location and register is as before (R110, R111, R112, R115). -/
def Obligations.ResampleFillsRnd : Prop :=
  ∀ (s : State) (a : Arg), s.phase = .pivoted → s.scale = some a → 1 ≤ a.toNat → a.toNat ≤ 65536 →
    Planes.filled s.src s.dims.samples →
    ∃ t, exec .resample s = .next t ∧
      t.outw = some (s.dims.w * a.toNat / 65536) ∧ t.outh = some (s.dims.h * a.toNat / 65536) ∧
      (∀ c, ∀ j < (s.dims.w * a.toNat / 65536) * (s.dims.h * a.toNat / 65536),
        ∃ b, Memory.read (planeOf t.rnd c) j = some b ∧
          b.toNat = roundOf s.dims a.toNat (sampleAt (planeOf s.src c)) j) ∧
      (∀ c j, (s.dims.w * a.toNat / 65536) * (s.dims.h * a.toNat / 65536) ≤ j →
        Memory.read (planeOf t.rnd c) j = Memory.read (planeOf s.rnd c) j) ∧
      t = { s with outw := t.outw, outh := t.outh, rnd := t.rnd, phase := .resampled }

/-- The filter of an interior coordinate is the sum of nine per-tap floors, at most 252, and needs no clamp (R114). -/
def Obligations.BoxFilterSumsNineFloors : Prop :=
  ∀ (d : Dims) (px : Nat → Byte) (row col : Nat), isInterior d row col = true →
    ∃ b, boxFilter9 d (fun i => .ok (px i)) row col = .ok b ∧ b.toNat ≤ 252 ∧
      b.toNat = ((List.range 3).map fun dr => ((List.range 3).map fun dc =>
        (px ((row + dr - 1) * d.w + (col + dc - 1))).toNat / 9).sum).sum

/-- Every output index maps inside the source image, and the taps of an interior coordinate lie in it too; the mapping is
non-decreasing in the output row and column, and for SCALE < 65536 different output columns map to different source
columns (R117). -/
def Obligations.SourceCoordinatesInBounds : Prop :=
  ∀ (d : Dims) (scale : Nat), 1 ≤ scale → scale ≤ 65536 →
    (∀ j < (outDims d scale).1 * (outDims d scale).2,
      (srcCoord (outDims d scale).1 scale j).1 < d.h ∧ (srcCoord (outDims d scale).1 scale j).2 < d.w) ∧
    (∀ row col, row < d.h → col < d.w → srcIndex d row col < d.samples) ∧
    (∀ row col, isInterior d row col = true → ∀ i ∈ tapIndices d row col, i < d.samples) ∧
    (∀ ow j k, j / ow ≤ k / ow → (srcCoord ow scale j).1 ≤ (srcCoord ow scale k).1) ∧
    (∀ ow j k, j % ow ≤ k % ow → (srcCoord ow scale j).2 ≤ (srcCoord ow scale k).2) ∧
    (scale < 65536 → ∀ ow j k, j % ow ≠ k % ow → (srcCoord ow scale j).2 ≠ (srcCoord ow scale k).2)

/-- With SCALE = 65536 the output has the source's size, every coordinate maps to itself, and RND copies SRC (R118). -/
def Obligations.ScaleOnePassthrough : Prop :=
  ∀ (s t : State), s.phase = .pivoted → s.scale = some 65536 → Planes.filled s.src s.dims.samples →
    exec .resample s = .next t →
    t.outw = some s.dims.w ∧ t.outh = some s.dims.h ∧
      (∀ j, srcCoord s.dims.w 65536 j = (j / s.dims.w, j % s.dims.w)) ∧
      ∀ c, ∀ j < s.dims.samples, Memory.read (planeOf t.rnd c) j = Memory.read (planeOf s.src c) j

/-- With OUTW = 0 or OUTH = 0 RESAMPLE writes no sample and reaches RESAMPLED, and QUNI, QLOG and PACK likewise write
nothing and go on to DONE; at 512 by 512 this is so exactly for SCALE ≤ 127 (R119). -/
def Obligations.EmptyOutputStillCompletes : Prop :=
  (∀ (s : State) (a : Arg), s.phase = .pivoted → s.scale = some a →
    (s.dims.w * a.toNat / 65536) * (s.dims.h * a.toNat / 65536) = 0 →
    exec .resample s = .next { s with
      outw := some (s.dims.w * a.toNat / 65536), outh := some (s.dims.h * a.toNat / 65536), phase := .resampled }) ∧
  (∀ s : State, Inv s → outSize s = 0 →
    (s.phase = .resampled → modeInt s = some (-1) → exec .quni s = .next { s with phase := .quantized }) ∧
    (s.phase = .resampled → modeInt s ≠ some (-1) → exec .qlog s = .next { s with phase := .quantized }) ∧
    (s.phase = .quantized → exec .pack s = .next { s with phase := .done })) ∧
  ∀ u : Nat, (outDims Config.dims u).1 * (outDims Config.dims u).2 = 0 ↔ u ≤ 127

/-- The three channels are independent: a plane of RND depends on no other plane of SRC (R116). -/
def Obligations.ChannelsAreIndependent : Prop :=
  ∀ (s s' t t' : State) (c : Channel), s.dims = s'.dims → s.scale = s'.scale →
    planeOf s.src c = planeOf s'.src c → planeOf s.rnd c = planeOf s'.rnd c →
    s.phase = .pivoted → s'.phase = .pivoted → exec .resample s = .next t → exec .resample s' = .next t' →
    planeOf t.rnd c = planeOf t'.rnd c

/-! ### The quantisers -/

/-- QUNI: QNT.c[j] is QuantUniform of RND.c[j] for every j below OUTW * OUTH, PHASE is QUANTIZED, and every other location
and register is as before (R130, R131). -/
def Obligations.QuniQuantizesEverySample : Prop :=
  ∀ (s : State) (q : Arg) (ow oh : Nat), s.phase = .resampled → modeInt s = some (-1) → s.quant = some q →
    1 ≤ q.toNat → q.toNat ≤ 8 → s.outw = some ow → s.outh = some oh → ow * oh ≤ s.dims.samples →
    Planes.filled s.rnd (ow * oh) →
    ∃ t, exec .quni s = .next t ∧
      (∀ c, ∀ j < ow * oh, ∃ b, Memory.read (planeOf t.qnt c) j = some b ∧
        b.toNat = sampleAt (planeOf s.rnd c) j / (256 / 2 ^ q.toNat) * (256 / 2 ^ q.toNat) + 256 / 2 ^ q.toNat / 2) ∧
      (∀ c j, ow * oh ≤ j → Memory.read (planeOf t.qnt c) j = Memory.read (planeOf s.qnt c) j) ∧
      t = { s with qnt := t.qnt, phase := .quantized }

/-- The bit form of the uniform quantiser: (v AND NOT (b - 1)) OR (b >> 1) with b = 2^(8 - q) (R132). -/
def Obligations.UniformQuantizerBitForm : Prop :=
  ∀ (v : Byte) (q : Nat), 1 ≤ q → q ≤ 8 →
    quantUniformByte (2 ^ q) v =
      (v &&& ~~~(BitVec.ofNat 8 (2 ^ (8 - q) - 1))) ||| BitVec.ofNat 8 (2 ^ (8 - q) / 2)

/-- Range, monotonicity, levels and idempotence of the uniform quantiser, and its cases QUANT = 8 and QUANT = 1 (R133). -/
def Obligations.UniformQuantizerProperties : Prop :=
  (∀ q, 1 ≤ q → q ≤ 8 → ∀ v, v ≤ 255 →
    256 / 2 ^ q / 2 ≤ quantUniform v (2 ^ q) ∧
    quantUniform v (2 ^ q) ≤ 256 - 256 / 2 ^ q + 256 / 2 ^ q / 2 ∧
    256 - 256 / 2 ^ q + 256 / 2 ^ q / 2 ≤ 255 ∧
    (∀ v', v ≤ v' → quantUniform v (2 ^ q) ≤ quantUniform v' (2 ^ q)) ∧
    quantUniform (quantUniform v (2 ^ q)) (2 ^ q) = quantUniform v (2 ^ q) ∧
    (∃ k < 2 ^ q, quantUniform v (2 ^ q) = k * (256 / 2 ^ q) + 256 / 2 ^ q / 2)) ∧
  (∀ q, 1 ≤ q → q ≤ 8 → ∀ k < 2 ^ q, ∃ v, v ≤ 255 ∧
    quantUniform v (2 ^ q) = k * (256 / 2 ^ q) + 256 / 2 ^ q / 2) ∧
  (∀ v, v ≤ 255 → quantUniform v 256 = v ∧ quantUniform v 2 = if v ≤ 127 then 64 else 192)

/-- QLOG: QNT.c[j] is QuantLog of RND.c[j] for every j below OUTW * OUTH, with one pivot for the three channels, PHASE is
QUANTIZED, and every other location and register is as before (R140). -/
def Obligations.QlogQuantizesEverySample : Prop :=
  ∀ (s : State) (q : Arg) (p ow oh : Nat), s.phase = .resampled → modeInt s ≠ some (-1) → s.quant = some q →
    1 ≤ q.toNat → q.toNat ≤ 8 → s.pivot = some (p : Int) → p ≤ 255 → s.outw = some ow → s.outh = some oh →
    ow * oh ≤ s.dims.samples → Planes.filled s.rnd (ow * oh) →
    ∃ t, exec .qlog s = .next t ∧
      (∀ c, ∀ j < ow * oh, ∃ b, Memory.read (planeOf t.qnt c) j = some b ∧
        b.toNat = quantLog (sampleAt (planeOf s.rnd c) j) p (2 ^ q.toNat)) ∧
      (∀ c j, ow * oh ≤ j → Memory.read (planeOf t.qnt c) j = Memory.read (planeOf s.qnt c) j) ∧
      t = { s with qnt := t.qnt, phase := .quantized }

/-- The integer forms compute the source's real-number formulas exactly, for every base above 1: the base cancels
(R149, R150, R151, R152). -/
def Obligations.LogQuantizerEqualsTheRealFormulas : Prop :=
  ∀ (b : ℝ) (v p q : Nat), 1 < b → v ≤ 255 → p ≤ 255 → 1 ≤ q → q ≤ 8 →
    (quantLog v p (2 ^ q) : Int) = quantLogReal b v p (2 ^ q)

/-- A sample equal to the pivot is returned as it is, for every number of intervals (R142). -/
def Obligations.PivotIsAFixedPoint : Prop :=
  ∀ p n : Nat, quantLog p p n = p

/-- The quotient of the interval index is n exactly for v = 255 with p ≠ 255, where the clamp puts the sample in interval
n - 1, and below n otherwise, where the clamp leaves it (R146). That the quotient is nowhere above n comes from the bound of
the model's search (log 14). -/
def Obligations.OnlyTheTopSampleIsClamped : Prop :=
  ∀ v p q : Nat, v ≤ 255 → p ≤ 255 → v ≠ p → 1 ≤ q → q ≤ 8 →
    (idxQuotient v p (2 ^ q) = 2 ^ q ↔ v = 255) ∧ (v ≠ 255 → idxExact v p (2 ^ q) = idxQuotient v p (2 ^ q)) ∧
    (v = 255 → idxExact v p (2 ^ q) = 2 ^ q - 1) ∧ idxExact v p (2 ^ q) < 2 ^ q

/-- The searches of the model find the greatest integer of rules R151 and R152: one more fails (R151, R152). The bounds of
the searches are the model's (log 14). -/
def Obligations.SearchBoundsDoNotBind : Prop :=
  (∀ v p q : Nat, v ≤ 255 → p ≤ 255 → v ≠ p → 1 ≤ q → q ≤ 8 → ∀ k,
    (pivotA p ^ k * idxDen v p (2 ^ q) ≤ idxNum v p (2 ^ q) ↔ k ≤ idxQuotient v p (2 ^ q))) ∧
  ∀ idx p q : Nat, p ≤ 255 → 1 ≤ q → q ≤ 8 → idx < 2 ^ q →
    (pivotP1 p ^ (2 * 2 ^ q) ≤ pivotA p ^ (2 * idx + 1) → ∃ r : Nat, reconDistance idx p (2 ^ q) = r ∧ ∀ m,
      (((2 * m + 1) * pivotP1 p) ^ (2 * 2 ^ q) ≤ 2 ^ (2 * 2 ^ q) * pivotA p ^ (2 * idx + 1) ↔ m ≤ r)) ∧
    (pivotA p ^ (2 * idx + 1) < pivotP1 p ^ (2 * 2 ^ q) → ∃ r : Nat, reconDistance idx p (2 ^ q) = -r ∧ ∀ m,
      ((2 * m + 1) ^ (2 * 2 ^ q) * pivotA p ^ (2 * idx + 1) ≤ (2 * pivotP1 p) ^ (2 * 2 ^ q) ↔ m ≤ r))

/-- The final clamp never acts: p + r is already in 0..255 (R148, R153 (b)). -/
def Obligations.FinalClampNeverActs : Prop :=
  ∀ idx p q : Nat, p ≤ 255 → 1 ≤ q → q ≤ 8 → idx < 2 ^ q →
    0 ≤ (p : Int) + reconDistance idx p (2 ^ q) ∧ (p : Int) + reconDistance idx p (2 ^ q) ≤ 255

/-- For a fixed pivot and n the logarithmic quantiser takes at most n + 1 distinct values, and n + 1 is reached: nine
levels for p = 128 and n = 8 (R154, 90 C3). -/
def Obligations.LogLevelCount : Prop :=
  (∀ p q : Nat, p ≤ 255 → 1 ≤ q → q ≤ 8 →
    ((Finset.range 256).image fun v => quantLog v p (2 ^ q)).card ≤ 2 ^ q + 1) ∧
  ((Finset.range 256).image fun v => quantLog v 128 8).card = 9

/-! ### PACK and RUN -/

/-- PACK: PACKED[3j + c] is QNT.c[j] for every j below OUTW * OUTH, PHASE is DONE, and every other location and register is
as before (R160, R161). -/
def Obligations.PackInterleaves : Prop :=
  ∀ (s : State) (ow oh : Nat), s.phase = .quantized → s.outw = some ow → s.outh = some oh →
    ow * oh ≤ s.dims.samples → Planes.filled s.qnt (ow * oh) →
    ∃ t, exec .pack s = .next t ∧
      (∀ c, ∀ j < ow * oh, Memory.read t.packed (3 * j + channelIndex c) = Memory.read (planeOf s.qnt c) j) ∧
      (∀ k < 3 * (ow * oh), (Memory.read t.packed k).isSome = true) ∧
      (∀ k, 3 * (ow * oh) ≤ k → Memory.read t.packed k = Memory.read s.packed k) ∧
      t = { s with packed := t.packed, phase := .done }

/-- RUN from any IDLE state with legal parameters and a stream ends in DONE, and every output byte is the quantised
resampled sample of the stream: the whole pipeline in one equation (R170). What SRC, RND and QNT then hold is left to
RunEqualsTheStagedCommands. That IN is still there afterwards is the model's (log 3). -/
def Obligations.RunComputesTheWholePipeline : Prop :=
  ∀ (s : State) (bytes : List Byte) (a q m : Arg), s.phase = .idle → s.scale = some a → s.quant = some q →
    s.mode = some m → paramCheck s = 0 → s.input = some bytes →
    ∃ t p, exec .run s = .next t ∧
      p = pivotOf s.dims.samples m.toInt (streamSample bytes s.dims.samples) ∧ t.pivot = some p ∧
      t.outw = some (s.dims.w * a.toNat / 65536) ∧ t.outh = some (s.dims.h * a.toNat / 65536) ∧
      (t.trunc = true ↔ bytes.length < 3 * s.dims.samples) ∧
      (∀ c, ∀ j < (s.dims.w * a.toNat / 65536) * (s.dims.h * a.toNat / 65536),
        ∃ b, Memory.read t.packed (3 * j + channelIndex c) = some b ∧
          b.toNat = quantOf m.toInt p (2 ^ q.toNat)
            (roundOf s.dims a.toNat (streamSample bytes s.dims.samples c) j)) ∧
      t = { s with src := t.src, rnd := t.rnd, qnt := t.qnt, packed := t.packed, trunc := t.trunc, pivot := t.pivot,
                   outw := t.outw, outh := t.outh, phase := .done }

/-- From any state with PHASE = IDLE and any IN, RUN and the staged sequence that MODE selects end in the same state, or in
the same error; and a fault of one is a fault of the other (R171). -/
def Obligations.RunEqualsTheStagedCommands : Prop :=
  ∀ s : State, s.phase = .idle → runWord 0x1F000000 s = runWords (stagedWords s) s

/-! ### Rules of the whole machine -/

/-- Only its own commands write each register: the three parameters, PIVOT, OUTW, OUTH, WARN, and ERR with ERRINFO where
an error is raised (R15-R19, R21-R23, R84). That no command writes W and H, uses IN up, or touches the host's coming actions
is the model's (log 1, 3, 2). -/
def Obligations.RegistersHaveTheirOnlyWriters : Prop :=
  ∀ (i : Instr) (s t : State), exec i s = .next t →
    ((∀ u, i ≠ .setscale u) → t.scale = s.scale) ∧ ((∀ u, i ≠ .setquant u) → t.quant = s.quant) ∧
    ((∀ m, i ≠ .setmode m) → t.mode = s.mode) ∧
    (i ≠ .pivot → i ≠ .run → t.pivot = s.pivot) ∧
    (i ≠ .resample → i ≠ .run → t.outw = s.outw ∧ t.outh = s.outh) ∧
    (i ≠ .load → i ≠ .run → t.trunc = s.trunc) ∧
    (t.phase ≠ .error → t.err = s.err ∧ t.errinfo = s.errinfo) ∧
    t.dims = s.dims ∧ t.input = s.input ∧ t.host = s.host

/-- Only its own commands write each memory, and every location keeps its byte otherwise (R25-R28, R40). -/
def Obligations.MemoriesHaveTheirOnlyWriters : Prop :=
  ∀ (i : Instr) (s t : State), exec i s = .next t →
    (i ≠ .load → i ≠ .run → ∀ c k, Memory.read (planeOf t.src c) k = Memory.read (planeOf s.src c) k) ∧
    (i ≠ .resample → i ≠ .run → ∀ c k, Memory.read (planeOf t.rnd c) k = Memory.read (planeOf s.rnd c) k) ∧
    (i ≠ .quni → i ≠ .qlog → i ≠ .run → ∀ c k, Memory.read (planeOf t.qnt c) k = Memory.read (planeOf s.qnt c) k) ∧
    (i ≠ .pack → i ≠ .run → ∀ k, Memory.read t.packed k = Memory.read s.packed k)

/-- After LOAD no command writes SRC, after RESAMPLE none writes RND, after QUNI or QLOG none writes QNT, after PACK none
writes PACKED (R53). -/
def Obligations.StageMemoriesAreImmutable : Prop :=
  ∀ (i : Instr) (s t : State), exec i s = .next t →
    (s.phase ≠ .idle → t.src = s.src) ∧
    (s.phase ≠ .idle → s.phase ≠ .pivoted → t.rnd = s.rnd) ∧
    (s.phase ≠ .idle → s.phase ≠ .resampled → t.qnt = s.qnt) ∧
    (s.phase ≠ .idle → s.phase ≠ .quantized → t.packed = s.packed)

/-- PHASE stays, moves one stage on, moves from IDLE to DONE by RUN, or moves to ERROR; no command returns to IDLE, so LOAD
or RUN succeeds at most once per reset (R20, R211). -/
def Obligations.PhaseOnlyMovesForward : Prop :=
  ∀ (i : Instr) (s t : State), exec i s = .next t →
    (t.phase = s.phase ∨ t.phase = .error ∨ rank t.phase = rank s.phase + 1 ∨
      (i = .run ∧ s.phase = .idle ∧ t.phase = .done)) ∧
    (t.phase = .idle → s.phase = .idle) ∧
    (s.phase = .error → t.phase = .error) ∧
    (i = .load ∨ i = .run → t.phase ≠ .error → s.phase = .idle ∧ t.phase ≠ .idle)

/-- In DONE only NOP is legal: every other command raises SequenceError, and leaves the output as it is (R71, R218). -/
def Obligations.OnlyNopIsLegalInDone : Prop :=
  ∀ (i : Instr) (s : State), s.phase = .done → i ≠ .nop → exec i s = .next (raise .sequenceError (encode i) s)

/-- WARN.TRUNC changes nothing in the behaviour of any command (R185). -/
def Obligations.TruncationDoesNotInfluence : Prop :=
  ∀ (i : Instr) (s t : State) (b : Bool), exec i s = .next t →
    ∃ t', exec i { s with trunc := b } = .next t' ∧ { t' with trunc := t.trunc } = t

/-- RST in any phase gives every register and memory its reset value (R36). -/
def Obligations.ResetGivesTheResetValues : Prop :=
  ∀ s : State, ∃ t, resetEngine s = t ∧ t.phase = .idle ∧ t.err = .none ∧ t.errinfo = 0 ∧ t.trunc = false ∧
    t.scale = none ∧ t.quant = none ∧ t.mode = none ∧ t.pivot = none ∧ t.outw = none ∧ t.outh = none ∧
    (∀ c k, Memory.read (planeOf t.src c) k = none ∧ Memory.read (planeOf t.rnd c) k = none ∧
      Memory.read (planeOf t.qnt c) k = none) ∧
    ∀ k, Memory.read t.packed k = none

/-- What the host reads: the status registers between commands, and PACKED[k] only in DONE and below 3 * OUTW * OUTH
(R35). That a read the spec gives no value is refused is the model's (log 12). -/
def Obligations.HostReads : Prop :=
  ∀ (s : State) (k : Nat),
    (hostStatus s = ⟨phaseCode s.phase, errValue s.err, s.errinfo, if s.trunc then 1 else 0, s.pivot, s.outw, s.outh⟩) ∧
    (s.phase ≠ .done → hostResult s k = .error .resultReadOutsideDone) ∧
    (Inv s → s.phase = .done → k < 3 * outSize s →
      ∃ v, hostResult s k = .ok v ∧ Memory.read s.packed k = some v) ∧
    (Inv s → s.phase = .done → 3 * outSize s ≤ k → hostResult s k = .error .resultReadOutOfRange)

/-- The start-up sequence of the host: with legal parameters, in any stream state but absent, three SETs and RUN reach
DONE (R212). The stream and the words are placed in the state's fields for the environment (log 2, 3). -/
def Obligations.StartupSequenceReachesDone : Prop :=
  ∀ (d : Dims) (bytes : List Byte) (u q : Nat) (m : Int), 1 ≤ u → u ≤ 65536 → 1 ≤ q → q ≤ 8 → -2 ≤ m → m ≤ 255 →
    ∃ t, core.run 4 { State.reset with
        dims := d, input := some bytes,
        host := [.command (encode (.setscale u)), .command (encode (.setquant q)), .command (encode (.setmode m)),
          .command 0x1F000000] } = .next t ∧ t.phase = .done ∧ t.err = .none

/-- The reset state has the invariant, and what its memories mean is right, since they hold nothing (R36). -/
def Obligations.InvariantAtReset : Prop :=
  Inv State.reset ∧ contentsOk State.reset

/-- Every step keeps the invariant: canonical memories within their capacity, legal register values, ERR ≠ 0 exactly in
ERROR, every stage's results present from its phase on and absent before it (R14, R20, R21, R45). -/
def Obligations.EveryStepKeepsTheInvariant : Prop :=
  ∀ s t : State, Inv s → step s = .next t → Inv t

/-- Every step keeps what the memories mean: PIVOT, RND, QNT and PACKED are at every moment what the rules compute from SRC
and the parameters (R53, R101, R115, R131, R141, R160). -/
def Obligations.EveryStepKeepsTheContents : Prop :=
  ∀ s t : State, Inv s → contentsOk s → step s = .next t → contentsOk t

/-- No step from a state with the invariant faults: no unset register and no unwritten or out-of-range location is ever
read. A step is refused only for a result read that the host may not make (R14, R45, R198). The faults and the
refusals are the model's (log 5, 6, 7, 12). -/
def Obligations.NoStepFaults : Prop :=
  ∀ s : State, Inv s →
    (∀ e, step s ≠ .fault e) ∧
    ∀ r, step s = .refused r → ∃ k rest, s.host = .readResult k :: rest ∧ (s.phase ≠ .done ∨ 3 * outSize s ≤ k)
end

