-- ==== Sys2Proof/Laws/State.lean ====
section
/-! SUPPORT. Each field of the state after each named update: one lemma per field per update, true by definition. -/

namespace Sys2Proof.Machine

variable (s : State)

/-! ### setScale -/

@[simp] theorem setScale_dims (v : Arg) : (setScale v s).dims = s.dims := rfl
@[simp] theorem setScale_host (v : Arg) : (setScale v s).host = s.host := rfl
@[simp] theorem setScale_input (v : Arg) : (setScale v s).input = s.input := rfl
@[simp] theorem setScale_scale (v : Arg) : (setScale v s).scale = some v := rfl
@[simp] theorem setScale_quant (v : Arg) : (setScale v s).quant = s.quant := rfl
@[simp] theorem setScale_mode (v : Arg) : (setScale v s).mode = s.mode := rfl
@[simp] theorem setScale_pivot (v : Arg) : (setScale v s).pivot = s.pivot := rfl
@[simp] theorem setScale_outw (v : Arg) : (setScale v s).outw = s.outw := rfl
@[simp] theorem setScale_outh (v : Arg) : (setScale v s).outh = s.outh := rfl
@[simp] theorem setScale_phase (v : Arg) : (setScale v s).phase = s.phase := rfl
@[simp] theorem setScale_err (v : Arg) : (setScale v s).err = s.err := rfl
@[simp] theorem setScale_errinfo (v : Arg) : (setScale v s).errinfo = s.errinfo := rfl
@[simp] theorem setScale_trunc (v : Arg) : (setScale v s).trunc = s.trunc := rfl
@[simp] theorem setScale_src (v : Arg) : (setScale v s).src = s.src := rfl
@[simp] theorem setScale_rnd (v : Arg) : (setScale v s).rnd = s.rnd := rfl
@[simp] theorem setScale_qnt (v : Arg) : (setScale v s).qnt = s.qnt := rfl
@[simp] theorem setScale_packed (v : Arg) : (setScale v s).packed = s.packed := rfl

/-! ### setQuant -/

@[simp] theorem setQuant_dims (v : Arg) : (setQuant v s).dims = s.dims := rfl
@[simp] theorem setQuant_host (v : Arg) : (setQuant v s).host = s.host := rfl
@[simp] theorem setQuant_input (v : Arg) : (setQuant v s).input = s.input := rfl
@[simp] theorem setQuant_scale (v : Arg) : (setQuant v s).scale = s.scale := rfl
@[simp] theorem setQuant_quant (v : Arg) : (setQuant v s).quant = some v := rfl
@[simp] theorem setQuant_mode (v : Arg) : (setQuant v s).mode = s.mode := rfl
@[simp] theorem setQuant_pivot (v : Arg) : (setQuant v s).pivot = s.pivot := rfl
@[simp] theorem setQuant_outw (v : Arg) : (setQuant v s).outw = s.outw := rfl
@[simp] theorem setQuant_outh (v : Arg) : (setQuant v s).outh = s.outh := rfl
@[simp] theorem setQuant_phase (v : Arg) : (setQuant v s).phase = s.phase := rfl
@[simp] theorem setQuant_err (v : Arg) : (setQuant v s).err = s.err := rfl
@[simp] theorem setQuant_errinfo (v : Arg) : (setQuant v s).errinfo = s.errinfo := rfl
@[simp] theorem setQuant_trunc (v : Arg) : (setQuant v s).trunc = s.trunc := rfl
@[simp] theorem setQuant_src (v : Arg) : (setQuant v s).src = s.src := rfl
@[simp] theorem setQuant_rnd (v : Arg) : (setQuant v s).rnd = s.rnd := rfl
@[simp] theorem setQuant_qnt (v : Arg) : (setQuant v s).qnt = s.qnt := rfl
@[simp] theorem setQuant_packed (v : Arg) : (setQuant v s).packed = s.packed := rfl

/-! ### setMode -/

@[simp] theorem setMode_dims (v : Arg) : (setMode v s).dims = s.dims := rfl
@[simp] theorem setMode_host (v : Arg) : (setMode v s).host = s.host := rfl
@[simp] theorem setMode_input (v : Arg) : (setMode v s).input = s.input := rfl
@[simp] theorem setMode_scale (v : Arg) : (setMode v s).scale = s.scale := rfl
@[simp] theorem setMode_quant (v : Arg) : (setMode v s).quant = s.quant := rfl
@[simp] theorem setMode_mode (v : Arg) : (setMode v s).mode = some v := rfl
@[simp] theorem setMode_pivot (v : Arg) : (setMode v s).pivot = s.pivot := rfl
@[simp] theorem setMode_outw (v : Arg) : (setMode v s).outw = s.outw := rfl
@[simp] theorem setMode_outh (v : Arg) : (setMode v s).outh = s.outh := rfl
@[simp] theorem setMode_phase (v : Arg) : (setMode v s).phase = s.phase := rfl
@[simp] theorem setMode_err (v : Arg) : (setMode v s).err = s.err := rfl
@[simp] theorem setMode_errinfo (v : Arg) : (setMode v s).errinfo = s.errinfo := rfl
@[simp] theorem setMode_trunc (v : Arg) : (setMode v s).trunc = s.trunc := rfl
@[simp] theorem setMode_src (v : Arg) : (setMode v s).src = s.src := rfl
@[simp] theorem setMode_rnd (v : Arg) : (setMode v s).rnd = s.rnd := rfl
@[simp] theorem setMode_qnt (v : Arg) : (setMode v s).qnt = s.qnt := rfl
@[simp] theorem setMode_packed (v : Arg) : (setMode v s).packed = s.packed := rfl

/-! ### finishLoad -/

@[simp] theorem finishLoad_dims (p : Planes) (t : Bool) : (finishLoad p t s).dims = s.dims := rfl
@[simp] theorem finishLoad_host (p : Planes) (t : Bool) : (finishLoad p t s).host = s.host := rfl
@[simp] theorem finishLoad_input (p : Planes) (t : Bool) : (finishLoad p t s).input = s.input := rfl
@[simp] theorem finishLoad_scale (p : Planes) (t : Bool) : (finishLoad p t s).scale = s.scale := rfl
@[simp] theorem finishLoad_quant (p : Planes) (t : Bool) : (finishLoad p t s).quant = s.quant := rfl
@[simp] theorem finishLoad_mode (p : Planes) (t : Bool) : (finishLoad p t s).mode = s.mode := rfl
@[simp] theorem finishLoad_pivot (p : Planes) (t : Bool) : (finishLoad p t s).pivot = s.pivot := rfl
@[simp] theorem finishLoad_outw (p : Planes) (t : Bool) : (finishLoad p t s).outw = s.outw := rfl
@[simp] theorem finishLoad_outh (p : Planes) (t : Bool) : (finishLoad p t s).outh = s.outh := rfl
@[simp] theorem finishLoad_phase (p : Planes) (t : Bool) : (finishLoad p t s).phase = .loaded := rfl
@[simp] theorem finishLoad_err (p : Planes) (t : Bool) : (finishLoad p t s).err = s.err := rfl
@[simp] theorem finishLoad_errinfo (p : Planes) (t : Bool) : (finishLoad p t s).errinfo = s.errinfo := rfl
@[simp] theorem finishLoad_trunc (p : Planes) (t : Bool) : (finishLoad p t s).trunc = t := rfl
@[simp] theorem finishLoad_src (p : Planes) (t : Bool) : (finishLoad p t s).src = p := rfl
@[simp] theorem finishLoad_rnd (p : Planes) (t : Bool) : (finishLoad p t s).rnd = s.rnd := rfl
@[simp] theorem finishLoad_qnt (p : Planes) (t : Bool) : (finishLoad p t s).qnt = s.qnt := rfl
@[simp] theorem finishLoad_packed (p : Planes) (t : Bool) : (finishLoad p t s).packed = s.packed := rfl

/-! ### finishPivot -/

@[simp] theorem finishPivot_dims (p : Int) : (finishPivot p s).dims = s.dims := rfl
@[simp] theorem finishPivot_host (p : Int) : (finishPivot p s).host = s.host := rfl
@[simp] theorem finishPivot_input (p : Int) : (finishPivot p s).input = s.input := rfl
@[simp] theorem finishPivot_scale (p : Int) : (finishPivot p s).scale = s.scale := rfl
@[simp] theorem finishPivot_quant (p : Int) : (finishPivot p s).quant = s.quant := rfl
@[simp] theorem finishPivot_mode (p : Int) : (finishPivot p s).mode = s.mode := rfl
@[simp] theorem finishPivot_pivot (p : Int) : (finishPivot p s).pivot = some p := rfl
@[simp] theorem finishPivot_outw (p : Int) : (finishPivot p s).outw = s.outw := rfl
@[simp] theorem finishPivot_outh (p : Int) : (finishPivot p s).outh = s.outh := rfl
@[simp] theorem finishPivot_phase (p : Int) : (finishPivot p s).phase = .pivoted := rfl
@[simp] theorem finishPivot_err (p : Int) : (finishPivot p s).err = s.err := rfl
@[simp] theorem finishPivot_errinfo (p : Int) : (finishPivot p s).errinfo = s.errinfo := rfl
@[simp] theorem finishPivot_trunc (p : Int) : (finishPivot p s).trunc = s.trunc := rfl
@[simp] theorem finishPivot_src (p : Int) : (finishPivot p s).src = s.src := rfl
@[simp] theorem finishPivot_rnd (p : Int) : (finishPivot p s).rnd = s.rnd := rfl
@[simp] theorem finishPivot_qnt (p : Int) : (finishPivot p s).qnt = s.qnt := rfl
@[simp] theorem finishPivot_packed (p : Int) : (finishPivot p s).packed = s.packed := rfl

/-! ### finishResample -/

@[simp] theorem finishResample_dims (ow oh : Nat) (p : Planes) : (finishResample ow oh p s).dims = s.dims := rfl
@[simp] theorem finishResample_host (ow oh : Nat) (p : Planes) : (finishResample ow oh p s).host = s.host := rfl
@[simp] theorem finishResample_input (ow oh : Nat) (p : Planes) : (finishResample ow oh p s).input = s.input := rfl
@[simp] theorem finishResample_scale (ow oh : Nat) (p : Planes) : (finishResample ow oh p s).scale = s.scale := rfl
@[simp] theorem finishResample_quant (ow oh : Nat) (p : Planes) : (finishResample ow oh p s).quant = s.quant := rfl
@[simp] theorem finishResample_mode (ow oh : Nat) (p : Planes) : (finishResample ow oh p s).mode = s.mode := rfl
@[simp] theorem finishResample_pivot (ow oh : Nat) (p : Planes) : (finishResample ow oh p s).pivot = s.pivot := rfl
@[simp] theorem finishResample_outw (ow oh : Nat) (p : Planes) : (finishResample ow oh p s).outw = some ow := rfl
@[simp] theorem finishResample_outh (ow oh : Nat) (p : Planes) : (finishResample ow oh p s).outh = some oh := rfl
@[simp] theorem finishResample_phase (ow oh : Nat) (p : Planes) : (finishResample ow oh p s).phase = .resampled := rfl
@[simp] theorem finishResample_err (ow oh : Nat) (p : Planes) : (finishResample ow oh p s).err = s.err := rfl
@[simp] theorem finishResample_errinfo (ow oh : Nat) (p : Planes) : (finishResample ow oh p s).errinfo = s.errinfo := rfl
@[simp] theorem finishResample_trunc (ow oh : Nat) (p : Planes) : (finishResample ow oh p s).trunc = s.trunc := rfl
@[simp] theorem finishResample_src (ow oh : Nat) (p : Planes) : (finishResample ow oh p s).src = s.src := rfl
@[simp] theorem finishResample_rnd (ow oh : Nat) (p : Planes) : (finishResample ow oh p s).rnd = p := rfl
@[simp] theorem finishResample_qnt (ow oh : Nat) (p : Planes) : (finishResample ow oh p s).qnt = s.qnt := rfl
@[simp] theorem finishResample_packed (ow oh : Nat) (p : Planes) : (finishResample ow oh p s).packed = s.packed := rfl

/-! ### finishQuantize -/

@[simp] theorem finishQuantize_dims (p : Planes) : (finishQuantize p s).dims = s.dims := rfl
@[simp] theorem finishQuantize_host (p : Planes) : (finishQuantize p s).host = s.host := rfl
@[simp] theorem finishQuantize_input (p : Planes) : (finishQuantize p s).input = s.input := rfl
@[simp] theorem finishQuantize_scale (p : Planes) : (finishQuantize p s).scale = s.scale := rfl
@[simp] theorem finishQuantize_quant (p : Planes) : (finishQuantize p s).quant = s.quant := rfl
@[simp] theorem finishQuantize_mode (p : Planes) : (finishQuantize p s).mode = s.mode := rfl
@[simp] theorem finishQuantize_pivot (p : Planes) : (finishQuantize p s).pivot = s.pivot := rfl
@[simp] theorem finishQuantize_outw (p : Planes) : (finishQuantize p s).outw = s.outw := rfl
@[simp] theorem finishQuantize_outh (p : Planes) : (finishQuantize p s).outh = s.outh := rfl
@[simp] theorem finishQuantize_phase (p : Planes) : (finishQuantize p s).phase = .quantized := rfl
@[simp] theorem finishQuantize_err (p : Planes) : (finishQuantize p s).err = s.err := rfl
@[simp] theorem finishQuantize_errinfo (p : Planes) : (finishQuantize p s).errinfo = s.errinfo := rfl
@[simp] theorem finishQuantize_trunc (p : Planes) : (finishQuantize p s).trunc = s.trunc := rfl
@[simp] theorem finishQuantize_src (p : Planes) : (finishQuantize p s).src = s.src := rfl
@[simp] theorem finishQuantize_rnd (p : Planes) : (finishQuantize p s).rnd = s.rnd := rfl
@[simp] theorem finishQuantize_qnt (p : Planes) : (finishQuantize p s).qnt = p := rfl
@[simp] theorem finishQuantize_packed (p : Planes) : (finishQuantize p s).packed = s.packed := rfl

/-! ### finishPack -/

@[simp] theorem finishPack_dims (m : Memory) : (finishPack m s).dims = s.dims := rfl
@[simp] theorem finishPack_host (m : Memory) : (finishPack m s).host = s.host := rfl
@[simp] theorem finishPack_input (m : Memory) : (finishPack m s).input = s.input := rfl
@[simp] theorem finishPack_scale (m : Memory) : (finishPack m s).scale = s.scale := rfl
@[simp] theorem finishPack_quant (m : Memory) : (finishPack m s).quant = s.quant := rfl
@[simp] theorem finishPack_mode (m : Memory) : (finishPack m s).mode = s.mode := rfl
@[simp] theorem finishPack_pivot (m : Memory) : (finishPack m s).pivot = s.pivot := rfl
@[simp] theorem finishPack_outw (m : Memory) : (finishPack m s).outw = s.outw := rfl
@[simp] theorem finishPack_outh (m : Memory) : (finishPack m s).outh = s.outh := rfl
@[simp] theorem finishPack_phase (m : Memory) : (finishPack m s).phase = .done := rfl
@[simp] theorem finishPack_err (m : Memory) : (finishPack m s).err = s.err := rfl
@[simp] theorem finishPack_errinfo (m : Memory) : (finishPack m s).errinfo = s.errinfo := rfl
@[simp] theorem finishPack_trunc (m : Memory) : (finishPack m s).trunc = s.trunc := rfl
@[simp] theorem finishPack_src (m : Memory) : (finishPack m s).src = s.src := rfl
@[simp] theorem finishPack_rnd (m : Memory) : (finishPack m s).rnd = s.rnd := rfl
@[simp] theorem finishPack_qnt (m : Memory) : (finishPack m s).qnt = s.qnt := rfl
@[simp] theorem finishPack_packed (m : Memory) : (finishPack m s).packed = m := rfl

/-! ### raise -/

@[simp] theorem raise_dims (e : ErrCode) (info : Word) : (raise e info s).dims = s.dims := rfl
@[simp] theorem raise_host (e : ErrCode) (info : Word) : (raise e info s).host = s.host := rfl
@[simp] theorem raise_input (e : ErrCode) (info : Word) : (raise e info s).input = s.input := rfl
@[simp] theorem raise_scale (e : ErrCode) (info : Word) : (raise e info s).scale = s.scale := rfl
@[simp] theorem raise_quant (e : ErrCode) (info : Word) : (raise e info s).quant = s.quant := rfl
@[simp] theorem raise_mode (e : ErrCode) (info : Word) : (raise e info s).mode = s.mode := rfl
@[simp] theorem raise_pivot (e : ErrCode) (info : Word) : (raise e info s).pivot = s.pivot := rfl
@[simp] theorem raise_outw (e : ErrCode) (info : Word) : (raise e info s).outw = s.outw := rfl
@[simp] theorem raise_outh (e : ErrCode) (info : Word) : (raise e info s).outh = s.outh := rfl
@[simp] theorem raise_phase (e : ErrCode) (info : Word) : (raise e info s).phase = .error := rfl
@[simp] theorem raise_err (e : ErrCode) (info : Word) : (raise e info s).err = e := rfl
@[simp] theorem raise_errinfo (e : ErrCode) (info : Word) : (raise e info s).errinfo = info := rfl
@[simp] theorem raise_trunc (e : ErrCode) (info : Word) : (raise e info s).trunc = s.trunc := rfl
@[simp] theorem raise_src (e : ErrCode) (info : Word) : (raise e info s).src = s.src := rfl
@[simp] theorem raise_rnd (e : ErrCode) (info : Word) : (raise e info s).rnd = s.rnd := rfl
@[simp] theorem raise_qnt (e : ErrCode) (info : Word) : (raise e info s).qnt = s.qnt := rfl
@[simp] theorem raise_packed (e : ErrCode) (info : Word) : (raise e info s).packed = s.packed := rfl

/-! ### resetEngine -/

@[simp] theorem resetEngine_dims : (resetEngine s).dims = s.dims := rfl
@[simp] theorem resetEngine_host : (resetEngine s).host = s.host := rfl
@[simp] theorem resetEngine_input : (resetEngine s).input = s.input := rfl
@[simp] theorem resetEngine_scale : (resetEngine s).scale = none := rfl
@[simp] theorem resetEngine_quant : (resetEngine s).quant = none := rfl
@[simp] theorem resetEngine_mode : (resetEngine s).mode = none := rfl
@[simp] theorem resetEngine_pivot : (resetEngine s).pivot = none := rfl
@[simp] theorem resetEngine_outw : (resetEngine s).outw = none := rfl
@[simp] theorem resetEngine_outh : (resetEngine s).outh = none := rfl
@[simp] theorem resetEngine_phase : (resetEngine s).phase = .idle := rfl
@[simp] theorem resetEngine_err : (resetEngine s).err = .none := rfl
@[simp] theorem resetEngine_errinfo : (resetEngine s).errinfo = 0 := rfl
@[simp] theorem resetEngine_trunc : (resetEngine s).trunc = false := rfl
@[simp] theorem resetEngine_src : (resetEngine s).src = Planes.unwritten := rfl
@[simp] theorem resetEngine_rnd : (resetEngine s).rnd = Planes.unwritten := rfl
@[simp] theorem resetEngine_qnt : (resetEngine s).qnt = Planes.unwritten := rfl
@[simp] theorem resetEngine_packed : (resetEngine s).packed = [] := rfl

/-! ### supplyStream -/

@[simp] theorem supplyStream_dims (x : Option (List Byte)) : (supplyStream x s).dims = s.dims := rfl
@[simp] theorem supplyStream_host (x : Option (List Byte)) : (supplyStream x s).host = s.host := rfl
@[simp] theorem supplyStream_input (x : Option (List Byte)) : (supplyStream x s).input = x := rfl
@[simp] theorem supplyStream_scale (x : Option (List Byte)) : (supplyStream x s).scale = s.scale := rfl
@[simp] theorem supplyStream_quant (x : Option (List Byte)) : (supplyStream x s).quant = s.quant := rfl
@[simp] theorem supplyStream_mode (x : Option (List Byte)) : (supplyStream x s).mode = s.mode := rfl
@[simp] theorem supplyStream_pivot (x : Option (List Byte)) : (supplyStream x s).pivot = s.pivot := rfl
@[simp] theorem supplyStream_outw (x : Option (List Byte)) : (supplyStream x s).outw = s.outw := rfl
@[simp] theorem supplyStream_outh (x : Option (List Byte)) : (supplyStream x s).outh = s.outh := rfl
@[simp] theorem supplyStream_phase (x : Option (List Byte)) : (supplyStream x s).phase = s.phase := rfl
@[simp] theorem supplyStream_err (x : Option (List Byte)) : (supplyStream x s).err = s.err := rfl
@[simp] theorem supplyStream_errinfo (x : Option (List Byte)) : (supplyStream x s).errinfo = s.errinfo := rfl
@[simp] theorem supplyStream_trunc (x : Option (List Byte)) : (supplyStream x s).trunc = s.trunc := rfl
@[simp] theorem supplyStream_src (x : Option (List Byte)) : (supplyStream x s).src = s.src := rfl
@[simp] theorem supplyStream_rnd (x : Option (List Byte)) : (supplyStream x s).rnd = s.rnd := rfl
@[simp] theorem supplyStream_qnt (x : Option (List Byte)) : (supplyStream x s).qnt = s.qnt := rfl
@[simp] theorem supplyStream_packed (x : Option (List Byte)) : (supplyStream x s).packed = s.packed := rfl

/-! ### withHost -/

@[simp] theorem withHost_dims (l : List HostAction) : (withHost l s).dims = s.dims := rfl
@[simp] theorem withHost_host (l : List HostAction) : (withHost l s).host = l := rfl
@[simp] theorem withHost_input (l : List HostAction) : (withHost l s).input = s.input := rfl
@[simp] theorem withHost_scale (l : List HostAction) : (withHost l s).scale = s.scale := rfl
@[simp] theorem withHost_quant (l : List HostAction) : (withHost l s).quant = s.quant := rfl
@[simp] theorem withHost_mode (l : List HostAction) : (withHost l s).mode = s.mode := rfl
@[simp] theorem withHost_pivot (l : List HostAction) : (withHost l s).pivot = s.pivot := rfl
@[simp] theorem withHost_outw (l : List HostAction) : (withHost l s).outw = s.outw := rfl
@[simp] theorem withHost_outh (l : List HostAction) : (withHost l s).outh = s.outh := rfl
@[simp] theorem withHost_phase (l : List HostAction) : (withHost l s).phase = s.phase := rfl
@[simp] theorem withHost_err (l : List HostAction) : (withHost l s).err = s.err := rfl
@[simp] theorem withHost_errinfo (l : List HostAction) : (withHost l s).errinfo = s.errinfo := rfl
@[simp] theorem withHost_trunc (l : List HostAction) : (withHost l s).trunc = s.trunc := rfl
@[simp] theorem withHost_src (l : List HostAction) : (withHost l s).src = s.src := rfl
@[simp] theorem withHost_rnd (l : List HostAction) : (withHost l s).rnd = s.rnd := rfl
@[simp] theorem withHost_qnt (l : List HostAction) : (withHost l s).qnt = s.qnt := rfl
@[simp] theorem withHost_packed (l : List HostAction) : (withHost l s).packed = s.packed := rfl

end Sys2Proof.Machine
end

