-- ==== Sys2Proof/Laws/Decode.lean ====
section
/-! SUPPORT. The two fields of a command word: a word is its OPC and its ARG, and nothing else (30_encoding.md R61). -/

namespace Sys2Proof

theorem mkWord_getLsbD (op : BitVec 8) (a : Arg) (i : Nat) :
    (mkWord op a).getLsbD i = if i < 24 then a.getLsbD i else op.getLsbD (i - 24) :=
  BitVec.getLsbD_append

/-- The OPC of an assembled word. -/
@[simp] theorem opc_mkWord (op : BitVec 8) (a : Arg) : opc (mkWord op a) = op := by
  refine BitVec.eq_of_getLsbD_eq fun i hi => ?_
  rw [opc, BitVec.getLsbD_extractLsb', mkWord_getLsbD]
  simp [hi]

/-- The ARG of an assembled word. -/
@[simp] theorem arg_mkWord (op : BitVec 8) (a : Arg) : arg (mkWord op a) = a := by
  refine BitVec.eq_of_getLsbD_eq fun i hi => ?_
  rw [arg, BitVec.getLsbD_extractLsb', mkWord_getLsbD]
  simp [hi]

/-- A word is put together from its two fields. -/
theorem mkWord_opc_arg (w : Word) : mkWord (opc w) (arg w) = w := by
  refine BitVec.eq_of_getLsbD_eq fun i hi => ?_
  rw [mkWord_getLsbD, opc, arg, BitVec.getLsbD_extractLsb', BitVec.getLsbD_extractLsb']
  split
  · next h => simp [h]
  · next h => simp [show 24 + (i - 24) = i by omega, show i - 24 < 8 by omega]

/-- A word as a number: OPC in the high byte. -/
theorem toNat_mkWord (op : BitVec 8) (a : Arg) : (mkWord op a).toNat = op.toNat * 2 ^ 24 + a.toNat := by
  have h : (mkWord op a).toNat = op.toNat <<< 24 ||| a.toNat := BitVec.toNat_append ..
  rw [h, ← Nat.shiftLeft_add_eq_or_of_lt a.isLt, Nat.shiftLeft_eq]

/-- OPC as a number. -/
theorem toNat_opc (w : Word) : (opc w).toNat = w.toNat / 2 ^ 24 := by
  have h := toNat_mkWord (opc w) (arg w)
  rw [mkWord_opc_arg] at h
  have := (arg w).isLt
  omega

/-- ARG as a number. -/
theorem toNat_arg (w : Word) : (arg w).toNat = w.toNat % 2 ^ 24 := by
  have h := toNat_mkWord (opc w) (arg w)
  rw [mkWord_opc_arg] at h
  have := (arg w).isLt
  omega

end Sys2Proof
end

