-- ==== Sys2Proof/Laws/Memory.lean ====
section
/-! SUPPORT. What the operations over memories can do: read after write, the canonical form, and the filling loop. -/

namespace Sys2Proof.Machine

/-! ### One byte -/

@[simp] theorem Memory.read_nil (i : Nat) : Memory.read [] i = none := rfl

theorem Memory.read_write_self (m : Memory) (i : Nat) (v : Byte) : Memory.read (Memory.write m i v) i = some v := by
  induction m with
  | nil => simp [Memory.write, Memory.read]
  | cons x m ih =>
    obtain ⟨a, b⟩ := x
    simp only [Memory.write]
    split
    · simp [Memory.read]
    · split
      · simp [Memory.read]
      · next h => simp [Memory.read, h, ih]

theorem Memory.read_write_other (m : Memory) {i k : Nat} (v : Byte) (h : k ≠ i) :
    Memory.read (Memory.write m i v) k = Memory.read m k := by
  induction m with
  | nil => simp [Memory.write, Memory.read, Ne.symm h]
  | cons x m ih =>
    obtain ⟨a, b⟩ := x
    simp only [Memory.write]
    split
    · simp [Memory.read, Ne.symm h]
    · split
      · next h' => subst h'; simp [Memory.read, Ne.symm h]
      · simp [Memory.read, ih]

theorem Memory.read_write (m : Memory) (i k : Nat) (v : Byte) :
    Memory.read (Memory.write m i v) k = if k = i then some v else Memory.read m k := by
  split
  · next h => subst h; exact Memory.read_write_self ..
  · next h => exact Memory.read_write_other _ _ h

/-- A written memory lists the written index and what was listed before, and nothing else. -/
theorem Memory.mem_write {m : Memory} {i : Nat} {v : Byte} {x : Host.Cell} (h : x ∈ Memory.write m i v) :
    x.1 = i ∨ x ∈ m := by
  induction m with
  | nil => simp [Memory.write] at h; simp [h]
  | cons y m ih =>
    obtain ⟨a, b⟩ := y
    simp only [Memory.write] at h
    split at h
    · simp only [List.mem_cons] at h ⊢
      rcases h with rfl | h <;> simp_all
    · split at h
      · simp only [List.mem_cons] at h ⊢
        rcases h with rfl | h <;> simp_all
      · simp only [List.mem_cons] at h ⊢
        rcases h with h | h
        · exact .inr (.inl h)
        · exact (ih h).imp_right .inr

/-- A write keeps the canonical form. -/
theorem Memory.write_wf {m : Memory} (i : Nat) (v : Byte) (h : Memory.wf m) : Memory.wf (Memory.write m i v) := by
  induction m with
  | nil => simp [Memory.write, Memory.wf]
  | cons x m ih =>
    obtain ⟨a, b⟩ := x
    obtain ⟨hx, hm⟩ := List.pairwise_cons.mp h
    simp only [Memory.write]
    split
    · next hi => exact List.pairwise_cons.mpr ⟨fun y hy => by
        rcases List.mem_cons.mp hy with rfl | hy
        · exact hi
        · exact Nat.lt_trans hi (hx y hy), h⟩
    · split
      · next ha => subst ha; exact List.pairwise_cons.mpr ⟨hx, hm⟩
      · refine List.pairwise_cons.mpr ⟨fun y hy => ?_, ih hm⟩
        rcases Memory.mem_write hy with h' | h'
        · show a < y.1
          omega
        · exact hx y h'

/-- A write below the capacity keeps every listed index below it. -/
theorem Memory.write_within {m : Memory} {cap i : Nat} (v : Byte) (hi : i < cap) (h : Memory.within m cap) :
    Memory.within (Memory.write m i v) cap := fun x hx => by
  rcases Memory.mem_write hx with hx | hx
  · omega
  · exact h x hx

theorem fetchByte_ok {cap : Nat} {m : Memory} {i : Nat} {v : Byte} :
    fetchByte cap m i = .ok v ↔ i < cap ∧ Memory.read m i = some v := by
  unfold fetchByte
  split
  · next h => split <;> simp_all
  · simp_all

/-- A written location inside the capacity is read without a fault. -/
theorem fetchByte_of_read {cap : Nat} {m : Memory} {i : Nat} (hi : i < cap)
    (h : (Memory.read m i).isSome = true) : fetchByte cap m i = .ok ((Memory.read m i).getD 0) := by
  obtain ⟨v, hv⟩ := Option.isSome_iff_exists.mp h
  simp [fetchByte, hi, hv]

theorem storeByte_ok {cap : Nat} {m m' : Memory} {i : Nat} {v : Byte} :
    storeByte cap m i v = .ok m' ↔ i < cap ∧ m' = Memory.write m i v := by
  unfold storeByte
  split <;> simp_all [eq_comm]

/-! ### The loop over the indices of one memory -/

/-- Everything the loop does when it completes: the indices below `n` hold what `f` gives, the others are as before, and
the canonical form and the capacity are kept. -/
theorem fillMemory_ok {cap : Nat} {f : Nat → Except Fault Byte} {n : Nat} {m m' : Memory}
    (h : fillMemory cap f n m = .ok m') :
    n ≤ cap ∧ (∀ i < n, ∃ v, f i = .ok v ∧ Memory.read m' i = some v) ∧
      (∀ i, n ≤ i → Memory.read m' i = Memory.read m i) ∧
      (Memory.wf m → Memory.wf m') ∧ (Memory.within m cap → Memory.within m' cap) := by
  induction n generalizing m with
  | zero => cases h; simp
  | succ j ih =>
    simp only [fillMemory] at h
    split at h
    · cases h
    next v hv =>
    split at h
    · cases h
    next m₁ hm₁ =>
    obtain ⟨hj, rfl⟩ := storeByte_ok.mp hm₁
    obtain ⟨-, hlt, hge, hwf, hin⟩ := ih h
    refine ⟨hj, fun i hi => ?_, fun i hi => ?_, fun hw => hwf (Memory.write_wf _ _ hw),
      fun hw => hin (Memory.write_within _ hj hw)⟩
    · by_cases hij : i = j
      · subst hij
        exact ⟨v, hv, by rw [hge _ le_rfl, Memory.read_write_self]⟩
      · exact hlt i (by omega)
    · rw [hge i (by omega), Memory.read_write_other _ _ (by omega)]

/-- The loop completes where every value is there and the indices are inside the capacity. -/
theorem fillMemory_complete {cap : Nat} {f : Nat → Except Fault Byte} {n : Nat} (m : Memory) (hn : n ≤ cap)
    (hf : ∀ i < n, ∃ v, f i = .ok v) : ∃ m', fillMemory cap f n m = .ok m' := by
  induction n generalizing m with
  | zero => exact ⟨m, rfl⟩
  | succ j ih =>
    obtain ⟨v, hv⟩ := hf j (by omega)
    obtain ⟨m', hm'⟩ := ih (Memory.write m j v) (by omega) fun i hi => hf i (by omega)
    exact ⟨m', by simp [fillMemory, hv, storeByte, Nat.lt_of_succ_le hn, hm']⟩

/-- The loop reads its values only below `n`. -/
theorem fillMemory_congr {cap : Nat} {f g : Nat → Except Fault Byte} {n : Nat} (m : Memory)
    (h : ∀ i < n, f i = g i) : fillMemory cap f n m = fillMemory cap g n m := by
  induction n generalizing m with
  | zero => rfl
  | succ j ih =>
    simp only [fillMemory, h j (by omega)]
    split
    · rfl
    · split
      · rfl
      · exact ih _ fun i hi => h i (by omega)

/-! ### The running sum -/

/-- The sum completes where every read does, and is the sum of what was read. -/
theorem sumReads_eq {g : Nat → Nat} {rd : Nat → Except Fault Byte} {val : Nat → Byte} {is : List Nat}
    (h : ∀ i ∈ is, rd i = .ok (val i)) : sumReads g rd is = .ok ((is.map fun i => g (val i).toNat).sum) := by
  induction is with
  | nil => rfl
  | cons i is ih =>
    simp [sumReads, h i (by simp), ih fun k hk => h k (by simp [hk])]

/-- A sum that completes has read every index. -/
theorem sumReads_ok {g : Nat → Nat} {rd : Nat → Except Fault Byte} {is : List Nat} {acc : Nat}
    (h : sumReads g rd is = .ok acc) : ∀ i ∈ is, ∃ v, rd i = .ok v := by
  induction is generalizing acc with
  | nil => simp
  | cons i is ih =>
    simp only [sumReads] at h
    split at h
    · cases h
    next v hv =>
    split at h
    · cases h
    next acc' hacc =>
    intro k hk
    rcases List.mem_cons.mp hk with rfl | hk
    · exact ⟨v, hv⟩
    · exact ih hacc k hk

/-! ### The three channels -/

@[simp] theorem planeOf_mk (r g b : Memory) (c : Channel) :
    planeOf { r := r, g := g, b := b } c = match c with | .r => r | .g => g | .b => b := by cases c <;> rfl

theorem Planes.wf_iff (p : Planes) : Planes.wf p ↔ ∀ c, Memory.wf (planeOf p c) :=
  ⟨fun ⟨hr, hg, hb⟩ c => by cases c <;> assumption, fun h => ⟨h .r, h .g, h .b⟩⟩

theorem Planes.within_iff (p : Planes) (cap : Nat) :
    Planes.within p cap ↔ ∀ c, Memory.within (planeOf p c) cap :=
  ⟨fun ⟨hr, hg, hb⟩ c => by cases c <;> assumption, fun h => ⟨h .r, h .g, h .b⟩⟩

theorem Planes.filled_iff (p : Planes) (n : Nat) : Planes.filled p n ↔ ∀ c, Memory.filled (planeOf p c) n :=
  ⟨fun ⟨hr, hg, hb⟩ c => by cases c <;> assumption, fun h => ⟨h .r, h .g, h .b⟩⟩

theorem fillPlanes_eq {cap : Nat} {f : Channel → Nat → Except Fault Byte} {n : Nat} {p p' : Planes} :
    fillPlanes cap f n p = .ok p' ↔ ∀ c, fillMemory cap (f c) n (planeOf p c) = .ok (planeOf p' c) := by
  constructor
  · intro h c
    unfold fillPlanes at h
    split at h
    · next hr hg hb => cases h; cases c <;> simp [planeOf, hr, hg, hb]
    all_goals cases h
  · intro h
    have hr := h .r
    have hg := h .g
    have hb := h .b
    simp only [planeOf] at hr hg hb
    simp [fillPlanes, hr, hg, hb]

/-- Everything the loop over indices and channels does when it completes. -/
theorem fillPlanes_ok {cap : Nat} {f : Channel → Nat → Except Fault Byte} {n : Nat} {p p' : Planes}
    (h : fillPlanes cap f n p = .ok p') :
    (∀ c, ∀ i < n, ∃ v, f c i = .ok v ∧ Memory.read (planeOf p' c) i = some v) ∧
      (∀ c i, n ≤ i → Memory.read (planeOf p' c) i = Memory.read (planeOf p c) i) ∧
      (Planes.wf p → Planes.wf p') ∧ (Planes.within p cap → Planes.within p' cap) := by
  rw [fillPlanes_eq] at h
  simp only [Planes.wf_iff, Planes.within_iff]
  exact ⟨fun c => (fillMemory_ok (h c)).2.1, fun c => (fillMemory_ok (h c)).2.2.1,
    fun hw c => (fillMemory_ok (h c)).2.2.2.1 (hw c), fun hw c => (fillMemory_ok (h c)).2.2.2.2 (hw c)⟩

/-- The loop completes where every value is there and the indices are inside the capacity. -/
theorem fillPlanes_complete {cap : Nat} {f : Channel → Nat → Except Fault Byte} {n : Nat} (p : Planes) (hn : n ≤ cap)
    (hf : ∀ c, ∀ i < n, ∃ v, f c i = .ok v) : ∃ p', fillPlanes cap f n p = .ok p' := by
  obtain ⟨r, hr⟩ := fillMemory_complete p.r hn (hf .r)
  obtain ⟨g, hg⟩ := fillMemory_complete p.g hn (hf .g)
  obtain ⟨b, hb⟩ := fillMemory_complete p.b hn (hf .b)
  exact ⟨⟨r, g, b⟩, by simp [fillPlanes, hr, hg, hb]⟩

/-- A completed loop has written every index below `n`. -/
theorem fillPlanes_filled {cap : Nat} {f : Channel → Nat → Except Fault Byte} {n : Nat} {p p' : Planes}
    (h : fillPlanes cap f n p = .ok p') : Planes.filled p' n := by
  rw [Planes.filled_iff]
  intro c i hi
  obtain ⟨v, -, hv⟩ := (fillPlanes_ok h).1 c i hi
  simp [hv]

end Sys2Proof.Machine
end

