-- ==== Sys2Proof/Laws/Ops.lean ====
section
/-! SUPPORT. What the shared operations over registers, the parameter check and the dispatch can do. -/

namespace Sys2Proof.Machine

/-! ### Reads of registers and derived values -/

@[simp] theorem readReg_ok {α : Type} {o : Option α} {v : α} : readReg o = .ok v ↔ o = some v := by
  cases o <;> simp [readReg]

/-- NEWSIZE is there exactly where OUTW and OUTH are set. -/
theorem newSize_ok {s : State} {k : Nat} :
    newSize s = .ok k ↔ ∃ ow oh, s.outw = some ow ∧ s.outh = some oh ∧ k = ow * oh := by
  unfold newSize
  cases s.outw <;> cases s.outh <;> simp [readReg, eq_comm]

/-- The pivot is there for QLOG exactly where PIVOT is set and in 0..255. -/
theorem pivotSample_ok {s : State} {p : Nat} :
    pivotSample s = .ok p ↔ s.pivot = some (p : Int) ∧ p ≤ 255 := by
  unfold pivotSample
  cases s.pivot with
  | none => simp [readReg]
  | some q =>
    simp only [readReg, Option.some.injEq]
    split
    · simp only [Except.ok.injEq]; omega
    · simp only [reduceCtorEq, false_iff]; omega

/-! ### The parameter check (R91) -/

theorem scaleLegal_iff {o : Option Arg} :
    scaleLegal o = true ↔ ∃ a, o = some a ∧ 1 ≤ a.toNat ∧ a.toNat ≤ 65536 := by
  cases o <;> simp [scaleLegal]

theorem quantLegal_iff {o : Option Arg} :
    quantLegal o = true ↔ ∃ a, o = some a ∧ 1 ≤ a.toNat ∧ a.toNat ≤ 8 := by
  cases o <;> simp [quantLegal]

theorem modeLegal_iff {o : Option Arg} :
    modeLegal o = true ↔ ∃ a, o = some a ∧ -2 ≤ a.toInt ∧ a.toInt ≤ 255 := by
  cases o with
  | none => simp [modeLegal]
  | some a => simp only [modeLegal, decide_eq_true_eq, Option.some.injEq, exists_eq_left']

/-- NUMINT is there exactly where QUANT is set and legal. -/
theorem numInt_ok {s : State} {n : Nat} :
    numInt s = .ok n ↔ ∃ q, s.quant = some q ∧ 1 ≤ q.toNat ∧ q.toNat ≤ 8 ∧ n = 2 ^ q.toNat := by
  unfold numInt
  cases s.quant with
  | none => simp [readReg]
  | some q =>
    have hq := quantLegal_iff (o := some q)
    simp only [Option.some.injEq, exists_eq_left'] at hq
    by_cases hl : quantLegal (some q) = true
    · simp [readReg, hl, hq.mp hl, eq_comm]
    · simp only [readReg, hl, Bool.false_eq_true, if_false, Option.some.injEq, exists_eq_left', reduceCtorEq, false_iff]
      exact fun h => hl (hq.mpr ⟨h.1, h.2.1⟩)

/-- The check passes exactly where all three parameters are legal. -/
theorem paramCheck_eq_zero {s : State} :
    paramCheck s = 0 ↔ scaleLegal s.scale = true ∧ quantLegal s.quant = true ∧ modeLegal s.mode = true := by
  unfold paramCheck
  cases scaleLegal s.scale <;> cases quantLegal s.quant <;> cases modeLegal s.mode <;> decide

/-- The check reads SCALE, QUANT and MODE only. -/
theorem paramCheck_congr {s t : State} (h₁ : t.scale = s.scale) (h₂ : t.quant = s.quant) (h₃ : t.mode = s.mode) :
    paramCheck t = paramCheck s := by
  simp [paramCheck, h₁, h₂, h₃]

/-- A failed check leaves a mask of 1 to 7 in ERRINFO (R22). -/
theorem paramInfo_range {m : BitVec 3} (h : m ≠ 0) : 1 ≤ (paramInfo m).toNat ∧ (paramInfo m).toNat ≤ 7 := by
  have : ∀ m : BitVec 3, m ≠ 0 → 1 ≤ (paramInfo m).toNat ∧ (paramInfo m).toNat ≤ 7 := by decide
  exact this m h

theorem modeInt_congr {s t : State} (h : t.mode = s.mode) : modeInt t = modeInt s := by simp [modeInt, h]

/-! ### Dispatch (R72) -/

/-- The own rule of each command, without the dispatch checks. -/
def bodyOf : Instr → State → Except Fault State
  | .nop => fun s => .ok s
  | .setscale imm => fun s => .ok (setScale (unsignedArg imm) s)
  | .setquant imm => fun s => .ok (setQuant (unsignedArg imm) s)
  | .setmode imm => fun s => .ok (setMode (signedArg imm) s)
  | .load => loadBody
  | .pivot => pivotBody
  | .resample => resampleBody
  | .quni => quniBody
  | .qlog => qlogBody
  | .pack => packBody
  | .run => runBody

theorem exec_eq (i : Instr) (s : State) : exec i s = guarded i (bodyOf i) s := by cases i <;> rfl

/-- In ERROR a command changes nothing (R190). -/
theorem guarded_error {i : Instr} {body : State → Except Fault State} {s : State} (h : s.phase = .error) :
    guarded i body s = .next s := by simp [guarded, h]

/-- A command that is not legal raises SequenceError (R183). -/
theorem guarded_illegal {i : Instr} {body : State → Except Fault State} {s : State} (h : s.phase ≠ .error)
    (hl : legalNow i s = false) : guarded i body s = .next (raise .sequenceError (encode i) s) := by
  simp [guarded, h, hl]

/-- A command that is legal follows its own rule. -/
theorem guarded_legal {i : Instr} {body : State → Except Fault State} {s : State} (h : s.phase ≠ .error)
    (hl : legalNow i s = true) : guarded i body s = finish (body s) := by
  simp [guarded, h, hl]

@[simp] theorem finish_next {r : Except Fault State} {t : State} : finish r = .next t ↔ r = .ok t := by
  cases r <;> simp [finish]

@[simp] theorem finish_fault {r : Except Fault State} {e : Fault} : finish r = .fault e ↔ r = .error e := by
  cases r <;> simp [finish]

@[simp] theorem finish_refused {r : Except Fault State} {e : Refusal} : finish r ≠ .refused e := by
  cases r <;> simp [finish]

/-- Everything a command can do: ignored in ERROR, SequenceError, or its own rule. -/
theorem exec_cases {i : Instr} {s t : State} (h : exec i s = .next t) :
    (s.phase = .error ∧ t = s) ∨
    (s.phase ≠ .error ∧ legalNow i s = false ∧ t = raise .sequenceError (encode i) s) ∨
    (s.phase ≠ .error ∧ legalNow i s = true ∧ bodyOf i s = .ok t) := by
  rw [exec_eq] at h
  by_cases he : s.phase = .error
  · rw [guarded_error he] at h
    cases h
    exact .inl ⟨he, rfl⟩
  · cases hl : legalNow i s with
    | false =>
      rw [guarded_illegal he hl] at h
      cases h
      exact .inr (.inl ⟨he, rfl, rfl⟩)
    | true =>
      rw [guarded_legal he hl] at h
      exact .inr (.inr ⟨he, rfl, finish_next.mp h⟩)

/-- A command faults only where its own rule does. -/
theorem exec_fault {i : Instr} {s : State} {e : Fault} (h : exec i s = .fault e) :
    s.phase ≠ .error ∧ legalNow i s = true ∧ bodyOf i s = .error e := by
  rw [exec_eq] at h
  by_cases he : s.phase = .error
  · rw [guarded_error he] at h; cases h
  · cases hl : legalNow i s with
    | false => rw [guarded_illegal he hl] at h; cases h
    | true =>
      rw [guarded_legal he hl] at h
      exact ⟨he, rfl, finish_fault.mp h⟩

/-- No command is refused. -/
theorem exec_not_refused (i : Instr) (s : State) (r : Refusal) : exec i s ≠ .refused r := by
  rw [exec_eq]
  unfold guarded
  split
  · simp
  · split <;> simp

end Sys2Proof.Machine
end

