-- ==== Sys2Proof/Laws/Stages.lean ====
section
/-! SUPPORT. One inversion lemma per command body: everything the body can do when it completes. -/

namespace Sys2Proof.Machine

/-! ### LOAD -/

/-- Loading the planes never stops. -/
theorem loadPlanes_complete (bytes : List Byte) (n : Nat) (src : Planes) : ∃ p, loadPlanes bytes n src = .ok p :=
  fillPlanes_complete src le_rfl fun c i _ => ⟨planeByte bytes n c i, rfl⟩

/-- After loading, location i of plane c holds stream position c * N + i, and nothing else has changed. -/
theorem loadPlanes_ok {bytes : List Byte} {n : Nat} {src p : Planes} (h : loadPlanes bytes n src = .ok p) :
    (∀ c, ∀ i < n, Memory.read (planeOf p c) i = some (planeByte bytes n c i)) ∧
      (∀ c i, n ≤ i → Memory.read (planeOf p c) i = Memory.read (planeOf src c) i) ∧
      (Planes.wf src → Planes.wf p) ∧ (Planes.within src n → Planes.within p n) := by
  obtain ⟨hlt, hge, hwf, hin⟩ := fillPlanes_ok h
  refine ⟨fun c i hi => ?_, hge, hwf, hin⟩
  obtain ⟨v, hv, hr⟩ := hlt c i hi
  cases hv
  exact hr

/-- The three ways LOAD ends. -/
theorem loadBody_ok {s t : State} (h : loadBody s = .ok t) :
    (paramCheck s ≠ 0 ∧ t = raise .paramError (paramInfo (paramCheck s)) s) ∨
    (paramCheck s = 0 ∧ s.input = none ∧ t = raise .ioError ioInfo s) ∨
    ∃ bytes src, paramCheck s = 0 ∧ s.input = some bytes ∧ loadPlanes bytes s.dims.samples s.src = .ok src ∧
      t = finishLoad src (truncFlag bytes s.dims.samples) s := by
  unfold loadBody at h
  split at h
  · next hp => cases h; exact .inl ⟨hp, rfl⟩
  · next hp =>
    have hp : paramCheck s = 0 := by simpa using hp
    split at h
    · next hi => cases h; exact .inr (.inl ⟨hp, hi, rfl⟩)
    · next bytes hi =>
      split at h
      · cases h
      · next src hs => cases h; exact .inr (.inr ⟨bytes, src, hp, hi, hs, rfl⟩)

/-- LOAD never faults. -/
theorem loadBody_complete (s : State) : ∃ t, loadBody s = .ok t := by
  unfold loadBody
  split
  · exact ⟨_, rfl⟩
  · split
    · exact ⟨_, rfl⟩
    · next bytes _ =>
      obtain ⟨p, hp⟩ := loadPlanes_complete bytes s.dims.samples s.src
      rw [hp]
      exact ⟨_, rfl⟩

/-! ### PIVOT -/

theorem pivotBody_ok {s t : State} (h : pivotBody s = .ok t) : ∃ p, resolvePivot s = .ok p ∧ t = finishPivot p s := by
  unfold pivotBody at h
  split at h
  · cases h
  · next p hp => cases h; exact ⟨p, hp, rfl⟩

theorem resolvePivot_ok {s : State} {p : Int} (h : resolvePivot s = .ok p) :
    ∃ m, modeInt s = some m ∧ ((m ≠ -2 ∧ p = m) ∨
      (m = -2 ∧ ∃ k : Nat, stridedMean s.dims.samples s.src = .ok k ∧ p = k)) := by
  unfold resolvePivot at h
  split at h
  · cases h
  · next m hm =>
    refine ⟨m, readReg_ok.mp hm, ?_⟩
    split at h
    · next hne => cases h; exact .inl ⟨hne, rfl⟩
    · next heq =>
      refine .inr ⟨by simpa using heq, ?_⟩
      split at h
      · cases h
      · next k hk => cases h; exact ⟨k, hk, rfl⟩

/-- The strided mean of written planes is the floor of the sum of the samples by 3 * SampleCount. -/
theorem stridedMean_eq {n : Nat} {src : Planes} (h : Planes.filled src n) :
    stridedMean n src = .ok
      ((((sampleIndices n).map fun i => ((Memory.read src.r i).getD 0).toNat).sum +
        ((sampleIndices n).map fun i => ((Memory.read src.g i).getD 0).toNat).sum +
        ((sampleIndices n).map fun i => ((Memory.read src.b i).getD 0).toNat).sum) / (3 * sampleCount n)) := by
  obtain ⟨hr, hg, hb⟩ := h
  have key : ∀ m : Memory, Memory.filled m n → sumSamples n m =
      .ok ((sampleIndices n).map fun i => ((Memory.read m i).getD 0).toNat).sum := fun m hm =>
    sumReads_eq (g := id) (val := fun i => (Memory.read m i).getD 0) fun i hi => by
      have hi : i < n := by simpa using (List.mem_filter.mp hi).1
      exact fetchByte_of_read hi (hm i hi)
  simp only [stridedMean, key _ hr, key _ hg, key _ hb]

/-! ### RESAMPLE -/

theorem resampleBody_ok {s t : State} (h : resampleBody s = .ok t) :
    ∃ a rnd, s.scale = some a ∧
      fillPlanes s.dims.samples
        (fun c j => roundSample s.dims (zextArg a) (outDims s.dims (zextArg a)).1
          (fetchByte s.dims.samples (planeOf s.src c)) j)
        ((outDims s.dims (zextArg a)).1 * (outDims s.dims (zextArg a)).2) s.rnd = .ok rnd ∧
      t = finishResample (outDims s.dims (zextArg a)).1 (outDims s.dims (zextArg a)).2 rnd s := by
  unfold resampleBody at h
  split at h
  · cases h
  · next a ha =>
    split at h
    · cases h
    · next rnd hr => cases h; exact ⟨a, rnd, readReg_ok.mp ha, hr, rfl⟩

/-! ### QUNI and QLOG -/

theorem quantizeBody_ok {q : Byte → Byte} {s t : State} (h : quantizeBody q s = .ok t) :
    ∃ ow oh qnt, s.outw = some ow ∧ s.outh = some oh ∧
      quantizePlanes q s.dims.samples (ow * oh) s.rnd s.qnt = .ok qnt ∧ t = finishQuantize qnt s := by
  unfold quantizeBody at h
  split at h
  · cases h
  · next k hk =>
    obtain ⟨ow, oh, hw, hh, rfl⟩ := newSize_ok.mp hk
    split at h
    · cases h
    · next qnt hq => cases h; exact ⟨ow, oh, qnt, hw, hh, hq, rfl⟩

/-- After quantising, location j of plane c of QNT holds q of location j of plane c of RND. -/
theorem quantizePlanes_ok {q : Byte → Byte} {cap size : Nat} {rnd qnt p : Planes}
    (h : quantizePlanes q cap size rnd qnt = .ok p) :
    (∀ c, ∀ j < size, ∃ v, Memory.read (planeOf rnd c) j = some v ∧ Memory.read (planeOf p c) j = some (q v)) ∧
      (∀ c j, size ≤ j → Memory.read (planeOf p c) j = Memory.read (planeOf qnt c) j) ∧
      (Planes.wf qnt → Planes.wf p) ∧ (Planes.within qnt cap → Planes.within p cap) := by
  obtain ⟨hlt, hge, hwf, hin⟩ := fillPlanes_ok h
  refine ⟨fun c j hj => ?_, hge, hwf, hin⟩
  obtain ⟨v, hv, hr⟩ := hlt c j hj
  split at hv
  · cases hv
  · next w hw =>
    cases hv
    exact ⟨w, (fetchByte_ok.mp hw).2, hr⟩

/-- Quantising completes where RND is written below the size and the size is inside the capacity. -/
theorem quantizePlanes_complete (q : Byte → Byte) {cap size : Nat} {rnd : Planes} (qnt : Planes) (hn : size ≤ cap)
    (h : Planes.filled rnd size) : ∃ p, quantizePlanes q cap size rnd qnt = .ok p := by
  refine fillPlanes_complete qnt hn fun c j hj => ?_
  rw [fetchByte_of_read (Nat.lt_of_lt_of_le hj hn) ((Planes.filled_iff ..).mp h c j hj)]
  exact ⟨_, rfl⟩

theorem quniBody_ok {s t : State} (h : quniBody s = .ok t) :
    ∃ n, numInt s = .ok n ∧ quantizeBody (quantUniformByte n) s = .ok t := by
  unfold quniBody at h
  split at h
  · cases h
  · next n hn => exact ⟨n, hn, h⟩

theorem qlogBody_ok {s t : State} (h : qlogBody s = .ok t) :
    ∃ n p, numInt s = .ok n ∧ pivotSample s = .ok p ∧ quantizeBody (quantLogByte p n) s = .ok t := by
  unfold qlogBody at h
  split at h
  · next n p hn hp => exact ⟨n, p, hn, hp, h⟩
  all_goals cases h

/-! ### PACK -/

theorem packBody_ok {s t : State} (h : packBody s = .ok t) :
    ∃ ow oh m, s.outw = some ow ∧ s.outh = some oh ∧
      packBytes s.dims.samples (ow * oh) s.qnt s.packed = .ok m ∧ t = finishPack m s := by
  unfold packBody at h
  split at h
  · cases h
  · next k hk =>
    obtain ⟨ow, oh, hw, hh, rfl⟩ := newSize_ok.mp hk
    split at h
    · cases h
    · next m hm => cases h; exact ⟨ow, oh, m, hw, hh, hm, rfl⟩

@[simp] theorem channelAt_index (c : Channel) : channelAt (channelIndex c) = c := by cases c <;> rfl

theorem channelIndex_lt (c : Channel) : channelIndex c < 3 := by cases c <;> decide

/-- After packing, location 3j + c holds location j of plane c of QNT. -/
theorem packBytes_ok {n size : Nat} {qnt : Planes} {m m' : Memory} (h : packBytes n size qnt m = .ok m') :
    (∀ c, ∀ j < size, ∃ v, Memory.read (planeOf qnt c) j = some v ∧
        Memory.read m' (3 * j + channelIndex c) = some v) ∧
      (∀ k, 3 * size ≤ k → Memory.read m' k = Memory.read m k) ∧
      Memory.filled m' (3 * size) ∧
      (Memory.wf m → Memory.wf m') ∧ (Memory.within m (3 * n) → Memory.within m' (3 * n)) := by
  obtain ⟨-, hlt, hge, hwf, hin⟩ := fillMemory_ok h
  refine ⟨fun c j hj => ?_, hge, fun k hk => ?_, hwf, hin⟩
  · have hc := channelIndex_lt c
    obtain ⟨v, hv, hr⟩ := hlt (3 * j + channelIndex c) (by simp only [Config.channels]; omega)
    have h1 : (3 * j + channelIndex c) % 3 = channelIndex c := by omega
    have h2 : (3 * j + channelIndex c) / 3 = j := by omega
    rw [h1, h2, channelAt_index] at hv
    exact ⟨v, (fetchByte_ok.mp hv).2, hr⟩
  · obtain ⟨v, -, hr⟩ := hlt k hk
    simp [hr]

/-- Packing completes where QNT is written below the size and the size is inside the capacity. -/
theorem packBytes_complete {n size : Nat} {qnt : Planes} (m : Memory) (hn : size ≤ n)
    (h : Planes.filled qnt size) : ∃ m', packBytes n size qnt m = .ok m' := by
  refine fillMemory_complete m (by simp only [Config.channels]; omega) fun k hk => ?_
  simp only [Config.channels] at hk
  rw [fetchByte_of_read (by omega) ((Planes.filled_iff ..).mp h _ (k / 3) (by omega))]
  exact ⟨_, rfl⟩

/-! ### RUN -/

theorem thenBody_ok {f g : State → Except Fault State} {s t : State} (h : thenBody f g s = .ok t) :
    ∃ u, f s = .ok u ∧ ((u.phase = .error ∧ t = u) ∨ (u.phase ≠ .error ∧ g u = .ok t)) := by
  unfold thenBody at h
  split at h
  · cases h
  · next u hu =>
    refine ⟨u, hu, ?_⟩
    split at h
    · next he => cases h; exact .inl ⟨he, rfl⟩
    · next he => exact .inr ⟨he, h⟩

end Sys2Proof.Machine
end

