-- ==== Sys2Proof/Laws/Exec.lean ====
section
/-! SUPPORT. What a command as a whole can do, one case for each way it ends. -/

namespace Sys2Proof.Machine

/-- A command that is legal and whose own rule completes gives the state of that rule. -/
theorem exec_of_body {i : Instr} {s t : State} (h : s.phase ≠ .error) (hl : legalNow i s = true)
    (hb : bodyOf i s = .ok t) : exec i s = .next t := by
  rw [exec_eq, guarded_legal h hl, hb]
  rfl

/-- One body after another, where the first completes without an error. -/
theorem thenBody_of_ok {f g : State → Except Fault State} {s u : State} (h : f s = .ok u) (hu : u.phase ≠ .error) :
    thenBody f g s = g u := by
  simp [thenBody, h, hu]

/-- The loops of QUNI and QLOG write QNT and PHASE. -/
theorem quantizerBody_ok {s t : State} (h : quantizerBody s = .ok t) : ∃ qnt, t = finishQuantize qnt s := by
  unfold quantizerBody at h
  split at h
  · obtain ⟨n, -, hq⟩ := quniBody_ok h
    obtain ⟨-, -, qnt, -, -, -, rfl⟩ := quantizeBody_ok hq
    exact ⟨qnt, rfl⟩
  · obtain ⟨n, p, -, -, hq⟩ := qlogBody_ok h
    obtain ⟨-, -, qnt, -, -, -, rfl⟩ := quantizeBody_ok hq
    exact ⟨qnt, rfl⟩

/-- The ways a command ends in a next state, with what it writes. -/
inductive Effect : Instr → State → State → Prop
  | ignored (i : Instr) (s : State) : s.phase = .error → Effect i s s
  | raised (i : Instr) (s : State) (e : ErrCode) (info : Word) :
      s.phase ≠ .error → e ≠ .none → Effect i s (raise e info s)
  | nop (s : State) : s.phase ≠ .error → Effect .nop s s
  | setscale (u : Nat) (s : State) : s.phase = .idle → Effect (.setscale u) s (setScale (unsignedArg u) s)
  | setquant (u : Nat) (s : State) : s.phase = .idle → Effect (.setquant u) s (setQuant (unsignedArg u) s)
  | setmode (m : Int) (s : State) : s.phase = .idle → Effect (.setmode m) s (setMode (signedArg m) s)
  | load (s : State) (src : Planes) (trunc : Bool) : s.phase = .idle → Effect .load s (finishLoad src trunc s)
  | pivot (s : State) (p : Int) : s.phase = .loaded → Effect .pivot s (finishPivot p s)
  | resample (s : State) (ow oh : Nat) (rnd : Planes) :
      s.phase = .pivoted → Effect .resample s (finishResample ow oh rnd s)
  | quni (s : State) (qnt : Planes) :
      s.phase = .resampled → modeInt s = some (-1) → Effect .quni s (finishQuantize qnt s)
  | qlog (s : State) (qnt : Planes) :
      s.phase = .resampled → modeInt s ≠ some (-1) → Effect .qlog s (finishQuantize qnt s)
  | pack (s : State) (m : Memory) : s.phase = .quantized → Effect .pack s (finishPack m s)
  | run (s : State) (src : Planes) (trunc : Bool) (p : Int) (ow oh : Nat) (rnd qnt : Planes) (m : Memory) :
      s.phase = .idle →
      Effect .run s (finishPack m (finishQuantize qnt (finishResample ow oh rnd (finishPivot p
        (finishLoad src trunc s)))))

/-- RUN raises what LOAD raises, or writes what the five stages write. -/
theorem runBody_effect {s t : State} (hp : s.phase = .idle) (h : runBody s = .ok t) : Effect .run s t := by
  have hne : s.phase ≠ .error := by simp [hp]
  obtain ⟨u, hu, h⟩ := thenBody_ok h
  obtain ⟨-, rfl⟩ | ⟨-, -, rfl⟩ | ⟨bytes, src, -, -, -, rfl⟩ := loadBody_ok hu
  · obtain ⟨-, rfl⟩ | ⟨he, -⟩ := h
    · exact .raised _ _ _ _ hne (by simp)
    · simp at he
  · obtain ⟨-, rfl⟩ | ⟨he, -⟩ := h
    · exact .raised _ _ _ _ hne (by simp)
    · simp at he
  · obtain ⟨he, -⟩ | ⟨-, h⟩ := h
    · simp at he
    obtain ⟨u, hu, h⟩ := thenBody_ok h
    obtain ⟨p, -, rfl⟩ := pivotBody_ok hu
    obtain ⟨he, -⟩ | ⟨-, h⟩ := h
    · simp at he
    obtain ⟨u, hu, h⟩ := thenBody_ok h
    obtain ⟨a, rnd, -, -, rfl⟩ := resampleBody_ok hu
    obtain ⟨he, -⟩ | ⟨-, h⟩ := h
    · simp at he
    obtain ⟨u, hu, h⟩ := thenBody_ok h
    obtain ⟨qnt, rfl⟩ := quantizerBody_ok hu
    obtain ⟨he, -⟩ | ⟨-, h⟩ := h
    · simp at he
    obtain ⟨-, -, m, -, -, -, rfl⟩ := packBody_ok h
    exact .run _ _ _ _ _ _ _ _ _ hp

/-- Everything a command can do when it answers a next state. -/
theorem exec_effect {i : Instr} {s t : State} (h : exec i s = .next t) : Effect i s t := by
  rcases exec_cases h with ⟨he, rfl⟩ | ⟨he, -, rfl⟩ | ⟨he, hl, hb⟩
  · exact .ignored _ _ he
  · exact .raised _ _ _ _ he (by simp)
  cases i with
  | nop => cases hb; exact .nop _ he
  | setscale u => cases hb; exact .setscale _ _ (by simpa [legalNow] using hl)
  | setquant u => cases hb; exact .setquant _ _ (by simpa [legalNow] using hl)
  | setmode m => cases hb; exact .setmode _ _ (by simpa [legalNow] using hl)
  | load =>
    obtain ⟨-, rfl⟩ | ⟨-, -, rfl⟩ | ⟨bytes, src, -, -, -, rfl⟩ := loadBody_ok hb
    · exact .raised _ _ _ _ he (by simp)
    · exact .raised _ _ _ _ he (by simp)
    · exact .load _ _ _ (by simpa [legalNow] using hl)
  | pivot =>
    obtain ⟨p, -, rfl⟩ := pivotBody_ok hb
    exact .pivot _ _ (by simpa [legalNow] using hl)
  | resample =>
    obtain ⟨a, rnd, -, -, rfl⟩ := resampleBody_ok hb
    exact .resample _ _ _ _ (by simpa [legalNow] using hl)
  | quni =>
    obtain ⟨n, -, hq⟩ := quniBody_ok hb
    obtain ⟨-, -, qnt, -, -, -, rfl⟩ := quantizeBody_ok hq
    obtain ⟨hp, hm⟩ := of_decide_eq_true hl
    exact .quni _ _ hp hm
  | qlog =>
    obtain ⟨n, p, -, -, hq⟩ := qlogBody_ok hb
    obtain ⟨-, -, qnt, -, -, -, rfl⟩ := quantizeBody_ok hq
    obtain ⟨hp, hm⟩ := of_decide_eq_true hl
    exact .qlog _ _ hp hm
  | pack =>
    obtain ⟨-, -, m, -, -, -, rfl⟩ := packBody_ok hb
    exact .pack _ _ (by simpa [legalNow] using hl)
  | run => exact runBody_effect (by simpa [legalNow] using hl) hb

/-- The memories of the state after reset are in canonical form. -/
theorem reset_memories_wf : Planes.wf State.reset.src ∧ Planes.wf State.reset.rnd ∧ Planes.wf State.reset.qnt ∧
    Memory.wf State.reset.packed := by
  decide

end Sys2Proof.Machine
end

