-- ==== Sys2Proof/Laws/PerInstr.lean ====
section
/-! SUPPORT. One statement about every command as syntax: the two fields of its word (30_encoding.md R61-R63). -/

namespace Sys2Proof.Laws.Fields

/-- OPC of a command (R63). -/
def opcOf : Instr → BitVec 8
  | .nop => 0x00
  | .setscale _ => 0x01
  | .setquant _ => 0x02
  | .setmode _ => 0x03
  | .load => 0x10
  | .pivot => 0x11
  | .resample => 0x12
  | .quni => 0x13
  | .qlog => 0x14
  | .pack => 0x15
  | .run => 0x1F

/-- The operand of a command modulo 2^24, 0 where it has none (R62, R73). -/
def operandOf : Instr → Int
  | .setscale imm => (imm : Int) % 2 ^ 24
  | .setquant imm => (imm : Int) % 2 ^ 24
  | .setmode imm => imm % 2 ^ 24
  | .nop | .load | .pivot | .resample | .quni | .qlog | .pack | .run => 0

/-- The word of a command is its OPC in the high byte and its operand below it. -/
def Statement (i : Instr) : Prop :=
  ((encode i).toNat : Int) = (opcOf i).toNat * 2 ^ 24 + operandOf i

theorem nop : Statement .nop := by unfold Statement; decide

theorem setscale (imm : Nat) : Statement (.setscale imm) := by
  simp [Statement, encode, toNat_mkWord, opcOf, operandOf]

theorem setquant (imm : Nat) : Statement (.setquant imm) := by
  simp [Statement, encode, toNat_mkWord, opcOf, operandOf]

theorem setmode (imm : Int) : Statement (.setmode imm) := by
  simp only [Statement, encode, toNat_mkWord, opcOf, operandOf, signedArg, BitVec.toNat_ofInt]
  push_cast
  rw [Int.toNat_of_nonneg (Int.emod_nonneg _ (by decide))]

theorem load : Statement .load := by unfold Statement; decide

theorem pivot : Statement .pivot := by unfold Statement; decide

theorem resample : Statement .resample := by unfold Statement; decide

theorem quni : Statement .quni := by unfold Statement; decide

theorem qlog : Statement .qlog := by unfold Statement; decide

theorem pack : Statement .pack := by unfold Statement; decide

theorem run : Statement .run := by unfold Statement; decide

end Sys2Proof.Laws.Fields
end

