-- ==== Sys2Proof/Tests/Slice0.lean ====
section
/-! SUPPORT. Tests: expected values are those of 95_test_vectors.md, or worked out by hand from the rule named. Then, for every
obligation with hypotheses, a concrete input that meets them. -/

namespace Sys2Proof.Tests

open Sys2Proof.Machine

/-! ### Helpers -/

/-- The next state of an outcome. -/
def nextOf : Host.Outcome State Fault Refusal → Option State
  | .next s => some s
  | _ => none

/-- A memory that holds these bytes from index 0 on. -/
def memoryOf (bs : List Byte) : Memory := (List.range bs.length).zip bs

/-- Three memories. -/
def planesOf (r g b : List Byte) : Planes := { r := memoryOf r, g := memoryOf g, b := memoryOf b }

/-- What a memory lists. -/
def bytesOf (m : Memory) : List Nat := m.map fun x => x.2.toNat

/-- What three memories list. -/
def planeBytes (p : Planes) : List (List Nat) := [bytesOf p.r, bytesOf p.g, bytesOf p.b]

/-- An IDLE state with the three parameters and a stream. -/
def configured (d : Dims) (u q m : Arg) (stream : Option (List Byte)) : State :=
  { State.reset with dims := d, input := stream, scale := some u, quant := some q, mode := some m }

/-- A LOADED state. -/
def loaded (d : Dims) (u q m : Arg) (src : Planes) : State :=
  { configured d u q m (some []) with src := src, phase := .loaded }

/-- A PIVOTED state. -/
def pivoted (d : Dims) (u q m : Arg) (src : Planes) (p : Int) : State :=
  { loaded d u q m src with pivot := some p, phase := .pivoted }

/-- A RESAMPLED state. -/
def resampled (d : Dims) (u q m : Arg) (src : Planes) (p : Int) (ow oh : Nat) (rnd : Planes) : State :=
  { pivoted d u q m src p with outw := some ow, outh := some oh, rnd := rnd, phase := .resampled }

/-- A QUANTIZED state. -/
def quantized (d : Dims) (u q m : Arg) (src : Planes) (p : Int) (ow oh : Nat) (rnd qnt : Planes) : State :=
  { resampled d u q m src p ow oh rnd with qnt := qnt, phase := .quantized }

/-- A DONE state. -/
def done (d : Dims) (u q m : Arg) (src : Planes) (p : Int) (ow oh : Nat) (rnd qnt : Planes) (packed : Memory) : State :=
  { quantized d u q m src p ow oh rnd qnt with packed := packed, phase := .done }

/-- An ERROR state. -/
def failedState : State := { State.reset with phase := .error, err := .ioError }

/-! ### Well-formedness: each check refuses an ill-formed command (R62) -/

theorem test_setscale_too_large : (Instr.setscale 16777216).wellFormed = false := by decide
theorem test_setquant_too_large : (Instr.setquant 16777216).wellFormed = false := by decide
theorem test_setmode_too_large : (Instr.setmode 8388608).wellFormed = false := by decide
theorem test_setmode_too_small : (Instr.setmode (-8388609)).wellFormed = false := by decide
theorem test_immediates_at_their_bounds :
    (Instr.setscale 16777215).wellFormed = true ∧ (Instr.setquant 16777215).wellFormed = true ∧
    (Instr.setmode 8388607).wellFormed = true ∧ (Instr.setmode (-8388608)).wellFormed = true := by decide

/-! ### Decoding: words of 95 section 2.1, every constructor -/

theorem test_decode_nop : decode 0x00000000 = .ok .nop := by decide
theorem test_decode_setscale : decode 0x01008000 = .ok (.setscale 32768) := by decide
theorem test_decode_setquant : decode 0x02000009 = .ok (.setquant 9) := by decide
theorem test_decode_setmode : decode 0x03FFFFFE = .ok (.setmode (-2)) := by decide
theorem test_decode_load : decode 0x10000000 = .ok .load := by decide
theorem test_decode_pivot : decode 0x11000000 = .ok .pivot := by decide
theorem test_decode_resample : decode 0x12000000 = .ok .resample := by decide
theorem test_decode_quni : decode 0x13000000 = .ok .quni := by decide
theorem test_decode_qlog : decode 0x14000000 = .ok .qlog := by decide
theorem test_decode_pack : decode 0x15000000 = .ok .pack := by decide
theorem test_decode_run : decode 0x1F000000 = .ok .run := by decide
theorem test_decode_reserved : decode 0x04000000 = .error .reservedOpcode ∧ decode 0x1E000000 = .error .reservedOpcode ∧
    decode 0x20000000 = .error .reservedOpcode ∧ decode 0xFFFFFFFF = .error .reservedOpcode := by decide
theorem test_decode_nonzero_argument : decode 0x00000001 = .error .nonzeroArgument ∧
    decode 0x10000001 = .error .nonzeroArgument := by decide
theorem test_encode_setmode : encode (.setmode (-8388608)) = 0x03800000 ∧ encode (.setmode 128) = 0x03000080 := by decide
theorem test_table_word : decodeTableWord 32 0x1F000000 = some .run := by decide

/-! ### One step of each command -/

/-- V-CFG-1. -/
theorem test_nop : nextOf (exec .nop State.reset) = some State.reset := by decide
/-- V-CFG-2 and V-CFG-4: any value is stored, and a later one overwrites it. -/
theorem test_setscale : (nextOf (exec (.setscale 70000) (configured ⟨2, 2⟩ 32768 8 0 none))).map (·.scale) =
    some (some 70000) := by decide
/-- V-CFG-6. -/
theorem test_setquant_outside_idle :
    (nextOf (exec (.setquant 3) (loaded ⟨1, 1⟩ 65536 8 0 (planesOf [7] [8] [9])))).map
      (fun t => (t.phase, t.err, t.errinfo, t.quant)) = some (.error, .sequenceError, 0x02000003, some 8) := by decide
/-- V-CFG-5. -/
theorem test_setmode : (nextOf (exec (.setmode (-2)) State.reset)).map (fun t => (t.mode.map BitVec.toInt, t.pivot)) =
    some (some (-2), none) := by decide
/-- V-LD-2. -/
theorem test_load_short_stream :
    (nextOf (exec .load (configured ⟨2, 2⟩ 65536 8 0xFFFFFF (some [1, 2, 3, 4, 5, 6])))).map
      (fun t => (planeBytes t.src, t.trunc, t.phase)) =
    some ([[1, 2, 3, 4], [5, 6, 0, 0], [0, 0, 0, 0]], true, .loaded) := by decide
/-- V-LD-9. -/
theorem test_load_bad_parameters :
    (nextOf (exec .load (configured ⟨2, 2⟩ 65537 8 0xFFFFFD (some [])))).map (fun t => (t.err, t.errinfo)) =
    some (.paramError, 5) := by decide
/-- V-PIV-12: only index 0 is sampled. -/
theorem test_pivot_mean :
    (nextOf (exec .pivot (loaded ⟨4, 4⟩ 65536 8 0xFFFFFE (planesOf [0] [255] [200])))).map (·.pivot) =
    some (some 151) := by decide
/-- V-PIV-9. -/
theorem test_pivot_uniform :
    (nextOf (exec .pivot (loaded ⟨4, 4⟩ 65536 8 0xFFFFFF Planes.unwritten))).map (fun t => (t.pivot, t.phase)) =
    some (some (-1), .pivoted) := by decide
/-- P3 step 6: four samples, the last of them filtered. -/
theorem test_resample :
    (nextOf (exec .resample (pivoted ⟨4, 4⟩ 32768 2 0xFFFFFE
      (planesOf [0, 16, 32, 48, 64, 80, 96, 112, 128, 144, 160, 176, 192, 208, 224, 240]
        [255, 239, 223, 207, 191, 175, 159, 143, 127, 111, 95, 79, 63, 47, 31, 15]
        [200, 200, 200, 200, 200, 200, 200, 200, 0, 0, 0, 0, 0, 0, 0, 0]) 151))).map
      (fun t => (t.outw, t.outh, planeBytes t.rnd)) =
    some (some 2, some 2, [[0, 32, 128, 155], [255, 223, 127, 90], [200, 200, 0, 66]]) := by decide
/-- V-ERR-9. -/
theorem test_resample_before_pivot :
    (nextOf (exec .resample (loaded ⟨1, 1⟩ 65536 8 0 (planesOf [7] [8] [9])))).map (fun t => (t.err, t.errinfo)) =
    some (.sequenceError, 0x12000000) := by decide
/-- P2 step 7. -/
theorem test_quni :
    (nextOf (exec .quni (resampled ⟨4, 4⟩ 32768 1 0xFFFFFF Planes.unwritten (-1) 2 2
      (planesOf [128, 128, 128, 126] [128, 128, 128, 126] [128, 128, 128, 126])))).map (fun t => planeBytes t.qnt) =
    some [[192, 192, 192, 64], [192, 192, 192, 64], [192, 192, 192, 64]] := by decide
/-- V-ERR-6. -/
theorem test_quni_wrong_mode :
    (nextOf (exec .quni (resampled ⟨1, 1⟩ 65536 2 128 Planes.unwritten 128 1 1 Planes.unwritten))).map
      (fun t => (t.err, t.errinfo, t.qnt)) = some (.sequenceError, 0x13000000, Planes.unwritten) := by decide
/-- P3 step 7. -/
theorem test_qlog :
    (nextOf (exec .qlog (resampled ⟨4, 4⟩ 32768 2 0xFFFFFE Planes.unwritten 151 2 2
      (planesOf [0, 32, 128, 155] [255, 223, 127, 90] [200, 200, 0, 66])))).map (fun t => planeBytes t.qnt) =
    some [[107, 107, 107, 153], [181, 181, 107, 107], [181, 181, 107, 107]] := by decide +kernel
/-- V-ERR-7. -/
theorem test_qlog_wrong_mode :
    (nextOf (exec .qlog (resampled ⟨1, 1⟩ 65536 2 0xFFFFFF Planes.unwritten (-1) 1 1 Planes.unwritten))).map
      (fun t => (t.err, t.errinfo)) = some (.sequenceError, 0x14000000) := by decide
/-- V-PK-4. -/
theorem test_pack :
    (nextOf (exec .pack (quantized ⟨2, 2⟩ 65536 8 0xFFFFFF Planes.unwritten (-1) 2 2 Planes.unwritten
      (planesOf [1, 2, 3, 4] [11, 12, 13, 14] [21, 22, 23, 24])))).map (fun t => (bytesOf t.packed, t.phase)) =
    some ([1, 11, 21, 2, 12, 22, 3, 13, 23, 4, 14, 24], .done) := by decide
/-- P10 (a), on a 2 x 2 image: one output pixel, from source (0, 0). -/
theorem test_run_one_pixel :
    (nextOf (exec .run (configured ⟨2, 2⟩ 32768 8 0xFFFFFF (some [7, 1, 1, 1, 8, 1, 1, 1, 9, 1, 1, 1, 5])))).map
      (fun t => (t.phase, t.pivot, t.outw, t.outh, bytesOf t.packed)) =
    some (.done, some (-1), some 1, some 1, [7, 8, 9]) := by decide
/-- P7. -/
theorem test_run_without_stream :
    (nextOf (exec .run (configured ⟨4, 4⟩ 65536 8 0xFFFFFF none))).map
      (fun t => (t.phase, t.err, t.errinfo, t.pivot, t.src)) =
    some (.error, .ioError, 0, none, Planes.unwritten) := by decide

/-- Scenario C of 95: samples on both sides of the pivot 128, eight intervals. -/
theorem test_quant_log : [0, 100, 118, 127, 128, 129, 138, 139, 255].map (fun v => quantLog v 128 8) =
    [59, 108, 123, 127, 128, 129, 133, 148, 197] := by decide +kernel

/-- The next word placed on the port runs, first thing after reset. -/
theorem test_fetch : nextOf (step (State.reset.withFetchWord 32 0x02000003)) =
    nextOf (exec (.setquant 3) State.reset) := by decide

/-! ### Witnesses: for every obligation with hypotheses, an input that meets them. Where an obligation has several clauses,
each has its own. The image of most of them is one pixel, (7, 8, 9). -/

/-- One pixel, LOADED. -/
def pixelLoaded (u m : Arg) : State := loaded ⟨1, 1⟩ u 8 m (planesOf [7] [8] [9])
/-- One pixel, PIVOTED. -/
def pixelPivoted (u m : Arg) (p : Int) : State := pivoted ⟨1, 1⟩ u 8 m (planesOf [7] [8] [9]) p
/-- One pixel, RESAMPLED at scale 1. -/
def pixelResampled (m : Arg) (p : Int) : State :=
  resampled ⟨1, 1⟩ 65536 8 m (planesOf [7] [8] [9]) p 1 1 (planesOf [7] [8] [9])
/-- One pixel, QUANTIZED with QUANT = 8 in uniform mode, which keeps the sample. -/
def pixelQuantized : State :=
  quantized ⟨1, 1⟩ 65536 8 0xFFFFFF (planesOf [7] [8] [9]) (-1) 1 1 (planesOf [7] [8] [9]) (planesOf [7] [8] [9])
/-- One pixel, DONE. -/
def pixelDone : State :=
  done ⟨1, 1⟩ 65536 8 0xFFFFFF (planesOf [7] [8] [9]) (-1) 1 1 (planesOf [7] [8] [9]) (planesOf [7] [8] [9])
    (memoryOf [7, 8, 9])
/-- An empty output: scale 0.5 of one pixel, RESAMPLED. -/
def emptyResampled (m : Arg) (p : Int) : State :=
  resampled ⟨1, 1⟩ 32768 8 m (planesOf [7] [8] [9]) p 0 0 Planes.unwritten
/-- An empty output, QUANTIZED. -/
def emptyQuantized : State := { emptyResampled 0xFFFFFF (-1) with phase := .quantized }
/-- One pixel, IDLE with the parameters and the stream it takes. -/
def pixelIdle : State := configured ⟨1, 1⟩ 65536 8 0xFFFFFF (some [7, 8, 9])

theorem inv_pixelLoaded : Inv (pixelLoaded 65536 0xFFFFFF) :=
  ⟨by decide, by decide, by decide, by decide, ⟨by decide, by decide, by decide, by decide, by decide⟩, by decide⟩
theorem inv_pixelLoaded_auto : Inv (pixelLoaded 65536 0xFFFFFE) :=
  ⟨by decide, by decide, by decide, by decide, ⟨by decide, by decide, by decide, by decide, by decide⟩, by decide⟩
theorem inv_pixelResampled : Inv (pixelResampled 0xFFFFFF (-1)) :=
  ⟨by decide, by decide, by decide, by decide, ⟨by decide, by decide, by decide, by decide, by decide⟩, by decide⟩
theorem inv_pixelQuantized : Inv pixelQuantized :=
  ⟨by decide, by decide, by decide, by decide, ⟨by decide, by decide, by decide, by decide, by decide⟩, by decide⟩
theorem inv_pixelDone : Inv pixelDone :=
  ⟨by decide, by decide, by decide, by decide, ⟨by decide, by decide, by decide, by decide, by decide⟩, by decide⟩
theorem inv_emptyResampled_uniform : Inv (emptyResampled 0xFFFFFF (-1)) :=
  ⟨by decide, by decide, by decide, by decide, ⟨by decide, by decide, by decide, by decide, by decide⟩, by decide⟩
theorem inv_emptyResampled_log : Inv (emptyResampled 255 255) :=
  ⟨by decide, by decide, by decide, by decide, ⟨by decide, by decide, by decide, by decide, by decide⟩, by decide⟩
theorem inv_emptyQuantized : Inv emptyQuantized :=
  ⟨by decide, by decide, by decide, by decide, ⟨by decide, by decide, by decide, by decide, by decide⟩, by decide⟩
theorem inv_failedState : Inv failedState :=
  ⟨by decide, by decide, by decide, by decide, ⟨by decide, by decide, by decide, by decide, by decide⟩, by decide⟩

/-! Encoding -/

theorem witness_DecodeOfEncode : (Instr.setmode (-8388608)).wellFormed = true ∧
    (Instr.setscale 16777215).wellFormed = true ∧ Instr.nop.wellFormed = true := by decide
theorem witness_DecodeInjectiveOnLegalWords : decode 0x01FFFFFF = .ok (.setscale 16777215) := by decide
theorem witness_ImmediateIsTheWholeArgField : decode 0x01FFFFFF = .ok (.setscale 16777215) ∧
    decode 0x02FFFFFF = .ok (.setquant 16777215) ∧ decode 0x03800000 = .ok (.setmode (-8388608)) ∧
    decode 0x037FFFFF = .ok (.setmode 8388607) := by decide
theorem witness_AssemblerWords : 0 < 10 ∧ expand (.setscaleRatio 3 10) = [.setscale 19660] := by decide

/-! The step, dispatch and errors -/

theorem witness_StepRunsTheDecodedCommand :
    (withHost [.command 0x11000000] (pixelLoaded 65536 0xFFFFFF)).host = [.command 0x11000000] ∧
    decode 0x11000000 = .ok .pivot ∧ decodeTableWord 32 0x11000000 = some .pivot := by decide
theorem witness_StepTakesTheHostAction : State.reset.host = [] ∧
    (withHost [.reset] failedState).host = [.reset] ∧
    (withHost [.supply (some [])] State.reset).host = [.supply (some [])] ∧
    (withHost [.readStatus] State.reset).host = [.readStatus] ∧
    (withHost [.readResult 2] pixelDone).host = [.readResult 2] ∧
    hostResult (withHost [.readResult 2] pixelDone) 2 = .ok 9 := by decide
theorem witness_ReservedOpcodeRaisesIllegalCommand :
    (∀ w ∈ ([0x04000000, 0x0F123456, 0x16000000, 0x1E000000, 0x20000000, 0xFFFFFFFF] : List Word),
      w.toNat / 2 ^ 24 ∉ [0x00, 0x01, 0x02, 0x03, 0x10, 0x11, 0x12, 0x13, 0x14, 0x15, 0x1F]) ∧
    State.reset.phase ≠ .error ∧ failedState.phase = .error := by
  simp [State.reset, failedState]
theorem witness_NonzeroArgumentRaisesIllegalCommand :
    (∀ w ∈ ([0x00000001, 0x10FFFFFF, 0x1F800000] : List Word),
      w.toNat / 2 ^ 24 ∈ [0x00, 0x10, 0x11, 0x12, 0x13, 0x14, 0x15, 0x1F] ∧ w.toNat % 2 ^ 24 ≠ 0) ∧
    State.reset.phase ≠ .error ∧ failedState.phase = .error := by
  simp [State.reset, failedState]
theorem witness_SequenceErrorOutsideTheLegalPhase :
    pixelDone.phase ≠ .error ∧ pixelDone.phase ≠ .idle ∧ pixelDone.phase ≠ .loaded ∧ pixelDone.phase ≠ .pivoted ∧
    pixelDone.phase ≠ .resampled ∧ pixelDone.phase ≠ .quantized ∧
    (pixelResampled 128 128).phase ≠ .error ∧ modeInt (pixelResampled 128 128) ≠ some (-1) ∧
    modeInt (pixelResampled 0xFFFFFF (-1)) = some (-1) := by decide
theorem witness_ErrorIsSticky : failedState.phase = .error := by decide
theorem witness_ErrorsArePrecise :
    (State.reset.phase ≠ .error ∧ ∃ t, exec .load State.reset = .next t ∧ t.phase = .error) ∧
    ∃ t, runWord 0xFFFFFFFF State.reset = .next t ∧ t.phase = .error :=
  ⟨⟨by decide, _, rfl, rfl⟩, _, rfl, rfl⟩
theorem witness_ParamCheckMask :
    (∃ t, exec .pivot (pixelLoaded 65536 0xFFFFFF) = .next t) ∧ (pixelLoaded 65536 0xFFFFFF).phase ≠ .idle :=
  ⟨⟨_, rfl⟩, by decide⟩
theorem witness_BadParametersRaiseParamError : State.reset.phase = .idle ∧ paramCheck State.reset = 7 ∧
    paramCheck (configured ⟨4, 4⟩ 65537 8 255 none) = 1 ∧ paramCheck (configured ⟨4, 4⟩ 1 9 255 none) = 2 ∧
    paramCheck (configured ⟨4, 4⟩ 1 1 0xFFFFFD none) = 4 := by decide
theorem witness_AbsentStreamRaisesIOError : (configured ⟨4, 4⟩ 1 1 255 none).phase = .idle ∧
    paramCheck (configured ⟨4, 4⟩ 1 1 255 none) = 0 ∧ (configured ⟨4, 4⟩ 1 1 255 none).input = none := by decide

/-! The configuration commands -/

theorem witness_SetscaleStoresItsImmediate : 16777215 < 2 ^ 24 ∧ State.reset.phase = .idle ∧
    pixelDone.phase ≠ .idle ∧ pixelDone.phase ≠ .error := by decide
theorem witness_SetquantStoresItsImmediate : 16777215 < 2 ^ 24 ∧ State.reset.phase = .idle ∧
    pixelDone.phase ≠ .idle ∧ pixelDone.phase ≠ .error := by decide
theorem witness_SetmodeStoresItsImmediate : (-2 ^ 23 : Int) ≤ -8388608 ∧ (-8388608 : Int) < 2 ^ 23 ∧
    (-2 ^ 23 : Int) ≤ 8388607 ∧ (8388607 : Int) < 2 ^ 23 ∧ State.reset.phase = .idle ∧
    pixelDone.phase ≠ .idle ∧ pixelDone.phase ≠ .error := by decide

/-! LOAD -/

theorem witness_LoadFillsThePlanes : pixelIdle.phase = .idle ∧ paramCheck pixelIdle = 0 ∧
    pixelIdle.input = some [7, 8, 9] ∧ (0 < pixelIdle.dims.samples ∧ pixelIdle.dims.samples ≤ 1) := by decide
theorem witness_BytesBeyondThePlanesAreNotRead : pixelIdle.phase = .idle ∧ paramCheck pixelIdle = 0 ∧
    3 * pixelIdle.dims.samples ≤ ([7, 8, 9] : List Byte).length := by decide
theorem witness_OnlyLoadAndRunReadTheStream :
    Instr.pivot ≠ .load ∧ Instr.pivot ≠ .run ∧ ∃ t, exec .pivot (pixelLoaded 65536 0xFFFFFF) = .next t :=
  ⟨by decide, by decide, _, rfl⟩

/-! PIVOT -/

theorem witness_PivotPassesModeThrough : (pixelLoaded 65536 255).phase = .loaded ∧
    (pixelLoaded 65536 255).mode = some 255 ∧ (255 : Arg).toInt ≠ -2 ∧ (0xFFFFFF : Arg).toInt ≠ -2 := by decide
theorem witness_PivotIsTheStridedMean : (pixelLoaded 65536 0xFFFFFE).phase = .loaded ∧
    (pixelLoaded 65536 0xFFFFFE).mode = some 0xFFFFFE ∧ (0xFFFFFE : Arg).toInt = -2 ∧
    Planes.filled (pixelLoaded 65536 0xFFFFFE).src (pixelLoaded 65536 0xFFFFFE).dims.samples := by decide
theorem witness_SampleCountCountsTheIndices : 1 ≤ 101 ∧ sampleCount 101 = 2 ∧ sampleCount 100 = 1 := by decide
theorem witness_PivotRange :
    (Inv (pixelLoaded 65536 0xFFFFFE) ∧ (pixelLoaded 65536 0xFFFFFE).phase = .loaded ∧
      ∃ t, exec .pivot (pixelLoaded 65536 0xFFFFFE) = .next t) ∧
    (Inv (pixelLoaded 65536 0xFFFFFF) ∧ (pixelLoaded 65536 0xFFFFFF).phase = .loaded ∧
      ∃ t, exec .pivot (pixelLoaded 65536 0xFFFFFF) = .next t) ∧
    (1 ≤ 16 ∧ ∀ c : Channel, ∀ i < 16, i % 100 = 0 → (fun _ i => if i = 0 then 90 else 1) c i = 90) :=
  ⟨⟨inv_pixelLoaded_auto, rfl, _, rfl⟩, ⟨inv_pixelLoaded, rfl, _, rfl⟩, by decide, fun _ i _ h => if_pos (by omega)⟩

/-! RESAMPLE -/

theorem witness_ResampleFillsRnd : (pixelPivoted 65536 255 255).phase = .pivoted ∧
    (pixelPivoted 65536 255 255).scale = some 65536 ∧ 1 ≤ (65536 : Arg).toNat ∧ (65536 : Arg).toNat ≤ 65536 ∧
    Planes.filled (pixelPivoted 65536 255 255).src (pixelPivoted 65536 255 255).dims.samples ∧
    (pixelPivoted 1 255 255).scale = some 1 ∧ 1 ≤ (1 : Arg).toNat := by decide
theorem witness_BoxFilterSumsNineFloors : isInterior ⟨3, 3⟩ 1 1 = true ∧ isInterior ⟨4, 4⟩ 2 2 = true ∧
    isInterior ⟨4, 4⟩ 3 2 = false := by decide
theorem witness_SourceCoordinatesInBounds : 1 ≤ 65535 ∧ 65535 < 65536 ∧
    3 < (outDims ⟨4, 4⟩ 32768).1 * (outDims ⟨4, 4⟩ 32768).2 ∧ 0 / 2 ≤ 3 / 2 ∧ 0 % 2 ≤ 3 % 2 ∧ 0 % 2 ≠ 3 % 2 ∧
    1 ≤ 1 ∧ 65536 ≤ 65536 ∧ 3 < 4 ∧ isInterior ⟨3, 3⟩ 1 1 = true ∧ 8 ∈ tapIndices ⟨3, 3⟩ 1 1 := by decide
theorem witness_ScaleOnePassthrough : (pixelPivoted 65536 255 255).phase = .pivoted ∧
    (pixelPivoted 65536 255 255).scale = some 65536 ∧
    Planes.filled (pixelPivoted 65536 255 255).src (pixelPivoted 65536 255 255).dims.samples ∧
    ∃ t, exec .resample (pixelPivoted 65536 255 255) = .next t := ⟨rfl, rfl, by decide, _, rfl⟩
theorem witness_EmptyOutputStillCompletes :
    ((pixelPivoted 32768 255 255).phase = .pivoted ∧ (pixelPivoted 32768 255 255).scale = some 32768 ∧
      ((pixelPivoted 32768 255 255).dims.w * (32768 : Arg).toNat / 65536) *
        ((pixelPivoted 32768 255 255).dims.h * (32768 : Arg).toNat / 65536) = 0) ∧
    (Inv (emptyResampled 0xFFFFFF (-1)) ∧ outSize (emptyResampled 0xFFFFFF (-1)) = 0 ∧
      (emptyResampled 0xFFFFFF (-1)).phase = .resampled ∧ modeInt (emptyResampled 0xFFFFFF (-1)) = some (-1)) ∧
    (Inv (emptyResampled 255 255) ∧ outSize (emptyResampled 255 255) = 0 ∧
      (emptyResampled 255 255).phase = .resampled ∧ modeInt (emptyResampled 255 255) ≠ some (-1)) ∧
    (Inv emptyQuantized ∧ outSize emptyQuantized = 0 ∧ emptyQuantized.phase = .quantized) :=
  ⟨by decide, ⟨inv_emptyResampled_uniform, by decide⟩, ⟨inv_emptyResampled_log, by decide⟩,
    inv_emptyQuantized, by decide⟩
/-- Two states that agree in the first plane and differ in the second. -/
theorem witness_ChannelsAreIndependent :
    let s := pixelPivoted 65536 255 255
    let s' := { s with src := planesOf [7] [80] [9] }
    s.dims = s'.dims ∧ s.scale = s'.scale ∧ planeOf s.src .r = planeOf s'.src .r ∧
      planeOf s.rnd .r = planeOf s'.rnd .r ∧ s.phase = .pivoted ∧ s'.phase = .pivoted ∧
      (∃ t, exec .resample s = .next t) ∧ ∃ t', exec .resample s' = .next t' :=
  ⟨rfl, rfl, rfl, rfl, rfl, rfl, ⟨_, rfl⟩, _, rfl⟩

/-! The quantisers -/

theorem witness_QuniQuantizesEverySample : (pixelResampled 0xFFFFFF (-1)).phase = .resampled ∧
    modeInt (pixelResampled 0xFFFFFF (-1)) = some (-1) ∧ (pixelResampled 0xFFFFFF (-1)).quant = some 8 ∧
    1 ≤ (8 : Arg).toNat ∧ (8 : Arg).toNat ≤ 8 ∧ (pixelResampled 0xFFFFFF (-1)).outw = some 1 ∧
    (pixelResampled 0xFFFFFF (-1)).outh = some 1 ∧ 1 * 1 ≤ (pixelResampled 0xFFFFFF (-1)).dims.samples ∧
    Planes.filled (pixelResampled 0xFFFFFF (-1)).rnd (1 * 1) := by decide
theorem witness_UniformQuantizerBitForm : 1 ≤ 1 ∧ 1 ≤ 8 ∧ 8 ≤ 8 := by decide
theorem witness_UniformQuantizerProperties : 1 ≤ 1 ∧ 8 ≤ 8 ∧ 127 ≤ 255 ∧ 255 ≤ 255 ∧ 127 ≤ 128 ∧ 255 < 2 ^ 8 := by decide
theorem witness_QlogQuantizesEverySample : (pixelResampled 255 255).phase = .resampled ∧
    modeInt (pixelResampled 255 255) ≠ some (-1) ∧ (pixelResampled 255 255).quant = some 8 ∧
    1 ≤ (8 : Arg).toNat ∧ (8 : Arg).toNat ≤ 8 ∧ (pixelResampled 255 255).pivot = some ((255 : Nat) : Int) ∧
    255 ≤ 255 ∧ (pixelResampled 255 255).outw = some 1 ∧ (pixelResampled 255 255).outh = some 1 ∧
    1 * 1 ≤ (pixelResampled 255 255).dims.samples ∧ Planes.filled (pixelResampled 255 255).rnd (1 * 1) := by decide
theorem witness_LogQuantizerEqualsTheRealFormulas : (1 : ℝ) < 2 ∧ 0 ≤ 255 ∧ 255 ≤ 255 ∧ 1 ≤ 1 ∧ 1 ≤ 8 ∧ 8 ≤ 8 :=
  ⟨one_lt_two, by decide⟩
theorem witness_OnlyTheTopSampleIsClamped : 255 ≤ 255 ∧ 0 ≤ 255 ∧ 255 ≠ 0 ∧ 0 ≠ 255 ∧ 254 ≠ 255 ∧ 1 ≤ 1 ∧ 8 ≤ 8 := by
  decide
/-- Interval 1 of pivot 0 lies above it, interval 0 of pivot 255 below it. -/
theorem witness_SearchBoundsDoNotBind : (0 ≤ 255 ∧ 255 ≤ 255 ∧ 0 ≠ 255 ∧ 1 ≤ 1 ∧ 1 < 2 ^ 1 ∧ 0 < 2 ^ 1) ∧
    pivotP1 0 ^ (2 * 2 ^ 1) ≤ pivotA 0 ^ (2 * 1 + 1) ∧ pivotA 255 ^ (2 * 0 + 1) < pivotP1 255 ^ (2 * 2 ^ 1) := by decide
theorem witness_FinalClampNeverActs : 0 ≤ 255 ∧ 255 ≤ 255 ∧ 1 ≤ 1 ∧ 8 ≤ 8 ∧ 255 < 2 ^ 8 ∧ 0 < 2 ^ 1 := by decide
theorem witness_LogLevelCount : 128 ≤ 255 ∧ 1 ≤ 3 ∧ 3 ≤ 8 := by decide

/-! PACK and RUN -/

theorem witness_PackInterleaves : pixelQuantized.phase = .quantized ∧ pixelQuantized.outw = some 1 ∧
    pixelQuantized.outh = some 1 ∧ 1 * 1 ≤ pixelQuantized.dims.samples ∧ Planes.filled pixelQuantized.qnt (1 * 1) := by
  decide
theorem witness_RunComputesTheWholePipeline : pixelIdle.phase = .idle ∧ pixelIdle.scale = some 65536 ∧
    pixelIdle.quant = some 8 ∧ pixelIdle.mode = some 0xFFFFFF ∧ paramCheck pixelIdle = 0 ∧
    pixelIdle.input = some [7, 8, 9] := by decide
theorem witness_RunEqualsTheStagedCommands : pixelIdle.phase = .idle ∧ State.reset.phase = .idle := by decide

/-! Rules of the whole machine -/

theorem witness_RegistersHaveTheirOnlyWriters : (∃ t, exec .run pixelIdle = .next t) ∧
    ∃ t, exec .pivot (pixelLoaded 65536 0xFFFFFE) = .next t := ⟨⟨_, rfl⟩, _, rfl⟩
theorem witness_MemoriesHaveTheirOnlyWriters : (∃ t, exec .pack pixelQuantized = .next t) ∧
    ∃ t, exec .load pixelIdle = .next t := ⟨⟨_, rfl⟩, _, rfl⟩
theorem witness_StageMemoriesAreImmutable : pixelQuantized.phase ≠ .idle ∧ pixelQuantized.phase ≠ .pivoted ∧
    pixelQuantized.phase ≠ .resampled ∧ pixelDone.phase ≠ .quantized ∧ pixelDone.phase ≠ .idle ∧
    (∃ t, exec .pack pixelQuantized = .next t) ∧ ∃ t, exec .nop pixelDone = .next t :=
  ⟨by decide, by decide, by decide, by decide, by decide, ⟨_, rfl⟩, _, rfl⟩
theorem witness_PhaseOnlyMovesForward : (∃ t, exec .run pixelIdle = .next t ∧ t.phase = .done) ∧
    (∃ t, exec .nop failedState = .next t ∧ failedState.phase = .error) ∧
    ∃ t, exec .nop State.reset = .next t ∧ t.phase = .idle := ⟨⟨_, rfl, rfl⟩, ⟨_, rfl, rfl⟩, _, rfl, rfl⟩
theorem witness_OnlyNopIsLegalInDone : pixelDone.phase = .done ∧ Instr.run ≠ .nop := by decide
theorem witness_TruncationDoesNotInfluence : ∃ t, exec .run pixelIdle = .next t := ⟨_, rfl⟩
theorem witness_HostReads : (pixelIdle.phase ≠ .done) ∧ (Inv pixelDone ∧ pixelDone.phase = .done ∧
    2 < 3 * outSize pixelDone ∧ 3 * outSize pixelDone ≤ 3) := ⟨by decide, inv_pixelDone, by decide⟩
theorem witness_StartupSequenceReachesDone : 1 ≤ 65536 ∧ 65536 ≤ 65536 ∧ 1 ≤ 8 ∧ 8 ≤ 8 ∧ (-2 : Int) ≤ -2 ∧
    (-2 : Int) ≤ 255 ∧ (-2 : Int) ≤ 255 ∧ (255 : Int) ≤ 255 := by decide
theorem witness_EveryStepKeepsTheInvariant :
    (Inv pixelQuantized ∧ ∃ t, step (withHost [.command 0x15000000] pixelQuantized) = .next t) ∧
    Inv (pixelResampled 0xFFFFFF (-1)) ∧ Inv failedState := ⟨⟨inv_pixelQuantized, _, rfl⟩, inv_pixelResampled, inv_failedState⟩
theorem witness_EveryStepKeepsTheContents : Inv pixelDone ∧ contentsOk pixelDone ∧
    ∃ t, step (withHost [.readResult 2] pixelDone) = .next t := by
  refine ⟨inv_pixelDone, ⟨fun _ => ?_, fun _ c j hj => ?_, fun _ => ?_, fun _ c j hj => ?_⟩, _, rfl⟩
  · decide
  · obtain rfl : j = 0 := by have : outSize pixelDone = 1 := by decide
                             omega
    cases c <;> decide
  · have hp : pixelDone.pivot = some (-1) := rfl
    have hm : modeInt pixelDone = some (-1) := by decide
    rw [hp, hm]
    rintro m ⟨⟩ p ⟨⟩ c j hj
    obtain rfl : j = 0 := by have : outSize pixelDone = 1 := by decide
                             omega
    cases c <;> decide
  · obtain rfl : j = 0 := by have : outSize pixelDone = 1 := by decide
                             omega
    cases c <;> decide
theorem witness_NoStepFaults : Inv pixelDone ∧ Inv pixelQuantized ∧
    step (withHost [.readResult 3] pixelDone) = .refused .resultReadOutOfRange :=
  ⟨inv_pixelDone, inv_pixelQuantized, by rfl⟩

end Sys2Proof.Tests
end

section
/-! Reset gives every piece of state its reset value (10_state.md R36; 70_reset_and_hazards.md R210). -/

namespace Sys2Proof.Machine

@[simp] theorem planeOf_unwritten (c : Channel) : planeOf Planes.unwritten c = [] := by
  cases c <;> rfl

/-- Settles O54. The registers are the fields of `resetEngine`; each memory is empty, and an empty memory reads as
unwritten at every location. -/
theorem resetGivesTheResetValues : Obligations.ResetGivesTheResetValues := by
  intro s
  have planesEmpty : ∀ (c : Channel) (k : Nat), Memory.read (planeOf Planes.unwritten c) k = none := by simp
  have packedEmpty : ∀ k, Memory.read (resetEngine s).packed k = none := by simp
  exact ⟨resetEngine s, rfl, resetEngine_phase s, resetEngine_err s, resetEngine_errinfo s, resetEngine_trunc s,
    resetEngine_scale s, resetEngine_quant s, resetEngine_mode s, resetEngine_pivot s, resetEngine_outw s,
    resetEngine_outh s, fun c k => ⟨planesEmpty c k, planesEmpty c k, planesEmpty c k⟩, packedEmpty⟩

end Sys2Proof.Machine
end

section
/-! Each memory is written only in the phase its stage starts from, or by RUN in IDLE (20_memory.md R53). -/

namespace Sys2Proof.Machine

section Writers

variable {i : Instr} {s t : State}

/-- SRC is written by LOAD and RUN only, and both start from IDLE. -/
theorem Effect.src_eq_of_not_idle (h : Effect i s t) (hidle : s.phase ≠ .idle) : t.src = s.src := by
  cases h with
  | load _ _ _ hp => exact absurd hp hidle
  | run _ _ _ _ _ _ _ _ _ hp => exact absurd hp hidle
  | _ => rfl

/-- RND is written by RESAMPLE, which starts from PIVOTED, and by RUN. -/
theorem Effect.rnd_eq_of_not_pivoted (h : Effect i s t) (hidle : s.phase ≠ .idle) (hpivoted : s.phase ≠ .pivoted) :
    t.rnd = s.rnd := by
  cases h with
  | resample _ _ _ _ hp => exact absurd hp hpivoted
  | run _ _ _ _ _ _ _ _ _ hp => exact absurd hp hidle
  | _ => rfl

/-- QNT is written by QUNI and QLOG, which start from RESAMPLED, and by RUN. -/
theorem Effect.qnt_eq_of_not_resampled (h : Effect i s t) (hidle : s.phase ≠ .idle)
    (hresampled : s.phase ≠ .resampled) : t.qnt = s.qnt := by
  cases h with
  | quni _ _ hp => exact absurd hp hresampled
  | qlog _ _ hp => exact absurd hp hresampled
  | run _ _ _ _ _ _ _ _ _ hp => exact absurd hp hidle
  | _ => rfl

/-- PACKED is written by PACK, which starts from QUANTIZED, and by RUN. -/
theorem Effect.packed_eq_of_not_quantized (h : Effect i s t) (hidle : s.phase ≠ .idle)
    (hquantized : s.phase ≠ .quantized) : t.packed = s.packed := by
  cases h with
  | pack _ _ hp => exact absurd hp hquantized
  | run _ _ _ _ _ _ _ _ _ hp => exact absurd hp hidle
  | _ => rfl

end Writers

/-- Settles O50. Every next state is an effect of the command, and an effect writes a memory only in the phase its stage
starts from, or in IDLE. -/
theorem stageMemoriesAreImmutable : Obligations.StageMemoriesAreImmutable := by
  intro i s t hexec
  have heffect : Effect i s t := exec_effect hexec
  exact ⟨heffect.src_eq_of_not_idle, heffect.rnd_eq_of_not_pivoted, heffect.qnt_eq_of_not_resampled,
    heffect.packed_eq_of_not_quantized⟩

end Sys2Proof.Machine
end

section
/-! The decoder as one equivalence: a word decodes to a command exactly when its OPC is the command's code and its ARG gives
the operand (30_encoding.md R61-R65, R68). The opcode map, the immediates and the illegal words follow from it. -/

namespace Sys2Proof

open Laws.Fields (opcOf)

/-- The field ARG that gives a command its operand: read unsigned, read signed, or zero in format Z (R62, R65). -/
def Instr.operandIn (a : Arg) : Instr → Prop
  | .setscale imm => zextArg a = imm
  | .setquant imm => zextArg a = imm
  | .setmode imm => sextArg a = imm
  | .nop | .load | .pivot | .resample | .quni | .qlog | .pack | .run => a = 0

@[simp] theorem decodeZ_eq_ok_iff {a : Arg} {i j : Instr} : decodeZ a i = .ok j ↔ a = 0 ∧ i = j := by
  unfold decodeZ
  split
  next ha => simp [ha]
  next ha => exact ⟨nofun, fun ⟨hzero, _⟩ => absurd hzero ha⟩

/-- Each of the eleven codes selects its own row, and any other code is reserved. -/
theorem fields_of_decode {w : Word} {i : Instr} (h : decode w = .ok i) : opc w = opcOf i ∧ i.operandIn (arg w) := by
  unfold decode at h
  split at h
  case h_2 hop | h_3 hop | h_4 hop =>
    cases h
    exact ⟨hop, rfl⟩
  case h_12 => cases h
  all_goals
    next hop =>
      obtain ⟨harg, rfl⟩ := decodeZ_eq_ok_iff.mp h
      exact ⟨hop, harg⟩

theorem decode_of_fields {w : Word} {i : Instr} (hop : opc w = opcOf i) (harg : i.operandIn (arg w)) :
    decode w = .ok i := by
  cases i <;> simp_all [decode, opcOf, Instr.operandIn]

theorem decode_eq_ok_iff {w : Word} {i : Instr} : decode w = .ok i ↔ opc w = opcOf i ∧ i.operandIn (arg w) :=
  ⟨fields_of_decode, fun ⟨hop, harg⟩ => decode_of_fields hop harg⟩

theorem Instr.wellFormed_of_operandIn {a : Arg} {i : Instr} (h : i.operandIn a) : i.wellFormed = true := by
  cases i with
  | setscale | setquant =>
    cases h
    exact decide_eq_true a.isLt
  | setmode =>
    cases h
    exact decide_eq_true ⟨a.le_toInt, a.toInt_lt⟩
  | _ => rfl

/-- Either reading of ARG is undone by keeping the low 24 bits of the operand. -/
theorem encode_of_operandIn {a : Arg} {i : Instr} (h : i.operandIn a) : encode i = mkWord (opcOf i) a := by
  cases i with
  | setscale | setquant | setmode =>
    cases h
    simp [encode, opcOf]
  | _ =>
    cases h
    rfl

theorem encode_of_decode {w : Word} {i : Instr} (h : decode w = .ok i) : encode i = w := by
  obtain ⟨hop, harg⟩ := fields_of_decode h
  rw [encode_of_operandIn harg, ← hop, mkWord_opc_arg]

/-- Settles O2. A legal word is the encoding of the command it decodes to, so the command determines the word. -/
theorem decodeInjectiveOnLegalWords : Obligations.DecodeInjectiveOnLegalWords := by
  refine ⟨fun w => ?_, fun w₁ w₂ i h₁ h₂ => (encode_of_decode h₁).symm.trans (encode_of_decode h₂)⟩
  cases h : decode w with
  | error e => exact .inl ⟨e, rfl⟩
  | ok i => exact .inr ⟨i, rfl, Instr.wellFormed_of_operandIn (fields_of_decode h).2, encode_of_decode h⟩

/-! ### Masks (R63) -/

/-- The mask of an immediate format keeps OPC and clears ARG. -/
theorem and_opcMask (w : Word) : w &&& 0xFF000000 = mkWord (opc w) 0 := by
  calc w &&& 0xFF000000 = mkWord (opc w) (arg w) &&& mkWord (BitVec.allOnes 8) 0 := by rw [mkWord_opc_arg]; rfl
    _ = mkWord (opc w &&& BitVec.allOnes 8) (arg w &&& 0) := BitVec.and_append
    _ = mkWord (opc w) 0 := by rw [BitVec.and_allOnes]; simp

theorem and_opcMask_eq_iff {w : Word} {op : BitVec 8} : w &&& 0xFF000000 = mkWord op 0 ↔ opc w = op := by
  rw [and_opcMask]
  exact ⟨fun h => by simpa using congrArg opc h, fun h => by rw [h]⟩

/-- The mask of format Z keeps the whole word, so it also tests that ARG is zero. -/
theorem and_wordMask_eq_iff {w : Word} {op : BitVec 8} :
    w &&& 0xFFFFFFFF = mkWord op 0 ↔ opc w = op ∧ arg w = 0 := by
  have hmask : w &&& 0xFFFFFFFF = w := BitVec.and_allOnes
  rw [hmask]
  refine ⟨?_, fun ⟨hop, harg⟩ => ?_⟩
  · rintro rfl
    simp
  · rw [← hop, ← harg, mkWord_opc_arg]

/-- Settles O3. A row of format Z fixes both fields of the word, a row with an immediate fixes OPC only. -/
theorem opcodeMapIsMaskAndMatch : Obligations.OpcodeMapIsMaskAndMatch := by
  intro w
  have hz : ∀ op, (opc w = op ∧ arg w = 0) ↔ w &&& 0xFFFFFFFF = mkWord op 0 := fun _ => and_wordMask_eq_iff.symm
  have himm : ∀ op, opc w = op ↔ w &&& 0xFF000000 = mkWord op 0 := fun _ => and_opcMask_eq_iff.symm
  simp only [decode_eq_ok_iff, opcOf, Instr.operandIn, exists_and_left, exists_eq', and_true]
  exact ⟨hz 0x00, himm 0x01, himm 0x02, himm 0x03, hz 0x10, hz 0x11, hz 0x12, hz 0x13, hz 0x14, hz 0x15, hz 0x1F⟩

/-! ### Immediates (R62) -/

theorem sextArg_eq_ite (a : Arg) :
    sextArg a = if a.toNat < 2 ^ 23 then (a.toNat : Int) else a.toNat - 2 ^ 24 := by
  have hsign : 2 * a.toNat < 2 ^ 24 ↔ a.toNat < 2 ^ 23 := by omega
  simp only [sextArg, BitVec.toInt_eq_toNat_cond, hsign]
  rfl

/-- Settles O4. The operand is the field ARG, whose number is w mod 2^24. -/
theorem immediateIsTheWholeArgField : Obligations.ImmediateIsTheWholeArgField := by
  intro w
  rw [← toNat_arg, ← sextArg_eq_ite]
  exact ⟨fun _ h => (fields_of_decode h).2.symm, fun _ h => (fields_of_decode h).2.symm,
    fun _ h => (fields_of_decode h).2.symm⟩

end Sys2Proof

/-! ### Illegal words (R64, R65) -/

namespace Sys2Proof.Machine

open Laws.Fields (opcOf)

/-- What the port does with a word that is no command: IllegalCommand, and nothing in ERROR. -/
theorem runWord_of_illegal {w : Word} (s : State) (h : ∀ i, decode w ≠ .ok i) :
    (s.phase ≠ .error → runWord w s = .next { s with err := .illegalCommand, errinfo := w, phase := .error }) ∧
    (s.phase = .error → runWord w s = .next s) := by
  cases hw : decode w with
  | ok i => exact absurd hw (h i)
  | error e => exact ⟨fun hp => by simp [runWord, hp, hw, raise], fun hp => by simp [runWord, hp]⟩

/-- Settles O9. A word that decodes to a command has the code of that command as its OPC. -/
theorem reservedOpcodeRaisesIllegalCommand : Obligations.ReservedOpcodeRaisesIllegalCommand := by
  intro s w hreserved
  refine runWord_of_illegal s fun i hi => hreserved ?_
  rw [← toNat_opc, (fields_of_decode hi).1]
  cases i <;> simp [opcOf]

/-- Settles O10. Of the commands, those with a Z-format code have ARG = 0, and the other three have other codes. -/
theorem nonzeroArgumentRaisesIllegalCommand : Obligations.NonzeroArgumentRaisesIllegalCommand := by
  intro s w hformat hnonzero
  refine runWord_of_illegal s fun i hi => ?_
  obtain ⟨hop, harg⟩ := fields_of_decode hi
  rw [← toNat_opc, hop] at hformat
  rw [← toNat_arg] at hnonzero
  cases i with
  | setscale | setquant | setmode => simp [opcOf] at hformat
  | _ => exact hnonzero (congrArg BitVec.toNat harg)

end Sys2Proof.Machine
end

section
/-! The configuration commands: each is legal in IDLE alone, where it stores its immediate unchanged
(40_config_commands.md R81-R83). -/

namespace Sys2Proof.Machine

/-! ### The 24-bit field holds the immediate (R62) -/

theorem toNat_unsignedArg {imm : Nat} (h : imm < 2 ^ 24) : (unsignedArg imm).toNat = imm :=
  (BitVec.toNat_ofNat ..).trans (Nat.mod_eq_of_lt h)

/-- The number of a word that carries an unsigned immediate: OPC in the high byte, the immediate below it. -/
theorem toNat_mkWord_unsignedArg (op : BitVec 8) {imm : Nat} (h : imm < 2 ^ 24) :
    (mkWord op (unsignedArg imm)).toNat = op.toNat * 2 ^ 24 + imm := by
  rw [toNat_mkWord, toNat_unsignedArg h]

theorem toInt_signedArg {imm : Int} (hlo : -2 ^ 23 ≤ imm) (hhi : imm < 2 ^ 23) : (signedArg imm).toInt = imm :=
  BitVec.toInt_ofInt_eq_self (by decide) hlo hhi

/-! ### Commands that are legal in IDLE alone (R71) -/

/-- A command that is not legal raises SequenceError with its own word (R183). -/
theorem exec_of_not_legal {i : Instr} {s : State} (h : s.phase ≠ .error) (hl : legalNow i s = false) :
    exec i s = .next (raise .sequenceError (encode i) s) := by
  rw [exec_eq, guarded_illegal h hl]

theorem exec_in_idle {i : Instr} {s t : State} (hl : legalNow i s = decide (s.phase = .idle))
    (hb : bodyOf i s = .ok t) (hidle : s.phase = .idle) : exec i s = .next t :=
  exec_of_body (by simp [hidle]) (by simp [hl, hidle]) hb

theorem exec_outside_idle {i : Instr} {s : State} (hl : legalNow i s = decide (s.phase = .idle))
    (hidle : s.phase ≠ .idle) (herror : s.phase ≠ .error) :
    exec i s = .next (raise .sequenceError (encode i) s) :=
  exec_of_not_legal herror (by simp [hl, hidle])

/-! ### The three SETs -/

/-- Settles O19. A 24-bit immediate is the operand field of its word, and that field is what SCALE holds. -/
theorem setscaleStoresItsImmediate : Obligations.SetscaleStoresItsImmediate := by
  intro imm s himm
  have hword : (encode (.setscale imm)).toNat = 0x01 * 2 ^ 24 + imm := toNat_mkWord_unsignedArg 0x01 himm
  exact ⟨hword, fun hidle => ⟨unsignedArg imm, toNat_unsignedArg himm, exec_in_idle rfl rfl hidle⟩,
    exec_outside_idle rfl⟩

/-- Settles O20. A 24-bit immediate is the operand field of its word, and that field is what QUANT holds. -/
theorem setquantStoresItsImmediate : Obligations.SetquantStoresItsImmediate := by
  intro imm s himm
  have hword : (encode (.setquant imm)).toNat = 0x02 * 2 ^ 24 + imm := toNat_mkWord_unsignedArg 0x02 himm
  exact ⟨hword, fun hidle => ⟨unsignedArg imm, toNat_unsignedArg himm, exec_in_idle rfl rfl hidle⟩,
    exec_outside_idle rfl⟩

/-- Settles O21. The word carries the immediate modulo 2^24; MODE holds the same field, which read as two's complement is
the immediate again. -/
theorem setmodeStoresItsImmediate : Obligations.SetmodeStoresItsImmediate := by
  intro imm s hlo hhi
  have hword : ((encode (.setmode imm)).toNat : Int) = 0x03 * 2 ^ 24 + imm % 2 ^ 24 := Laws.Fields.setmode imm
  exact ⟨hword, fun hidle => ⟨signedArg imm, toInt_signedArg hlo hhi, exec_in_idle rfl rfl hidle⟩,
    exec_outside_idle rfl⟩

end Sys2Proof.Machine
end

section
/-! The parameter mask, one bit for each parameter (41_planar_rgb_loader.md R91). The three parameters are written by the
SETs, which are legal in IDLE alone (40_config_commands.md R81-R83). -/

namespace Sys2Proof.Machine

/-- Each test sets its own bit, whatever the other two answer. -/
theorem paramCheck_bits (s : State) :
    (paramCheck s).getLsbD 0 = !scaleLegal s.scale ∧
    (paramCheck s).getLsbD 1 = !quantLegal s.quant ∧
    (paramCheck s).getLsbD 2 = !modeLegal s.mode := by
  unfold paramCheck
  cases scaleLegal s.scale <;> cases quantLegal s.quant <;> cases modeLegal s.mode <;> decide

/-- Of all effects only those of the SETs write a parameter, and they start from IDLE. -/
theorem Effect.parameters_eq_of_not_idle {i : Instr} {s t : State} (h : Effect i s t) (hidle : s.phase ≠ .idle) :
    t.scale = s.scale ∧ t.quant = s.quant ∧ t.mode = s.mode := by
  cases h with
  | setscale _ _ hp | setquant _ _ hp | setmode _ _ hp => exact absurd hp hidle
  | _ => exact ⟨rfl, rfl, rfl⟩

/-- Settles O15. Each bit is the negation of one legality test, which says that the parameter is set and in its range;
every next state is an effect of the command. -/
theorem paramCheckMask : Obligations.ParamCheckMask := by
  refine ⟨fun s => ?_, fun i s t hexec => (exec_effect hexec).parameters_eq_of_not_idle⟩
  obtain ⟨hscale, hquant, hmode⟩ := paramCheck_bits s
  rw [hscale, hquant, hmode, ← scaleLegal_iff, ← quantLegal_iff, ← modeLegal_iff]
  simp only [Bool.not_eq_true', Bool.not_eq_true, and_self]

end Sys2Proof.Machine
end

section
/-! The coordinate mapper and the empty output of RESAMPLE (43_box_filter_3x3_rgb.md R112, R117-R119). -/

namespace Sys2Proof.Machine

/-! ### Coordinates of an output index -/

/-- One coordinate of SrcCoord keeps the order and joins no two indices: a step of 1 in `x` adds 65536 / SCALE, which is at
least 1 (R112). -/
theorem strictMono_sourceCoordinate {scale : Nat} (hpos : 1 ≤ scale) (hle : scale ≤ 65536) :
    StrictMono fun x => x * Config.scaleOne / scale :=
  strictMono_nat_of_lt_succ fun x => by
    calc x * 65536 / scale < x * 65536 / scale + 1 := Nat.lt_succ_self _
      _ = (x * 65536 + scale) / scale := (Nat.add_div_right _ hpos).symm
      _ ≤ (x + 1) * 65536 / scale := Nat.div_le_div_right (by omega)

/-- Below the output's `n * SCALE / 65536`, a coordinate maps below the source's `n` (R111, R112). -/
theorem sourceCoordinate_lt {n scale x : Nat} (hpos : 1 ≤ scale) (hx : x < n * scale / Config.scaleOne) :
    x * Config.scaleOne / scale < n := by
  have hscaled : (x + 1) * 65536 ≤ n * scale := (Nat.le_div_iff_mul_le (by decide)).mp hx
  rw [Nat.div_lt_iff_lt_mul hpos]
  show x * 65536 < n * scale
  omega

theorem srcCoord_lt {d : Dims} {scale j : Nat} (hpos : 1 ≤ scale)
    (hj : j < (outDims d scale).1 * (outDims d scale).2) :
    (srcCoord (outDims d scale).1 scale j).1 < d.h ∧ (srcCoord (outDims d scale).1 scale j).2 < d.w := by
  have hwidth : 0 < (outDims d scale).1 := Nat.pos_of_mul_pos_right (Nat.zero_lt_of_lt hj)
  exact ⟨sourceCoordinate_lt hpos (Nat.div_lt_of_lt_mul hj), sourceCoordinate_lt hpos (Nat.mod_lt j hwidth)⟩

/-! ### Indices of source pixels -/

theorem srcIndex_lt {d : Dims} {row col : Nat} (hrow : row < d.h) (hcol : col < d.w) :
    srcIndex d row col < d.samples := by
  calc row * d.w + col < row * d.w + d.w := Nat.add_lt_add_left hcol _
    _ = (row + 1) * d.w := (Nat.succ_mul row d.w).symm
    _ ≤ d.h * d.w := Nat.mul_le_mul_right _ hrow
    _ = d.w * d.h := Nat.mul_comm ..

/-- A tap lies at most one row below and one column right of the centre. -/
theorem exists_of_mem_tapIndices {d : Dims} {row col i : Nat} (h : i ∈ tapIndices d row col) :
    ∃ r c, r ≤ row + 1 ∧ c ≤ col + 1 ∧ i = srcIndex d r c := by
  obtain ⟨r, hr, hi⟩ := List.mem_flatMap.mp h
  obtain ⟨c, hc, rfl⟩ := List.mem_map.mp hi
  simp only [List.mem_cons, List.not_mem_nil, or_false] at hr hc
  exact ⟨r, c, by omega, by omega, rfl⟩

/-- The taps of an interior coordinate lie inside the source image (R113, R117). -/
theorem tapIndex_lt {d : Dims} {row col i : Nat} (hinterior : isInterior d row col = true)
    (hi : i ∈ tapIndices d row col) : i < d.samples := by
  obtain ⟨-, hrow, -, hcol⟩ := of_decide_eq_true hinterior
  obtain ⟨r, c, hr, hc, rfl⟩ := exists_of_mem_tapIndices hi
  exact srcIndex_lt (by omega) (by omega)

/-- Settles O31. Rows and columns go through one strictly increasing map, which takes what lies below an output dimension
below the source dimension. -/
theorem sourceCoordinatesInBounds : Obligations.SourceCoordinatesInBounds := by
  intro d scale hpos hle
  have hmono := strictMono_sourceCoordinate hpos hle
  exact ⟨fun _ => srcCoord_lt hpos, fun _ _ => srcIndex_lt, fun _ _ hinterior _ => tapIndex_lt hinterior,
    fun _ _ _ h => hmono.monotone h, fun _ _ _ h => hmono.monotone h, fun _ _ _ _ h => hmono.injective.ne h⟩

/-! ### SCALE = 65536 (R118) -/

@[simp] theorem outDims_scaleOne (d : Dims) : outDims d Config.scaleOne = (d.w, d.h) := by
  simp [outDims]

@[simp] theorem srcCoord_scaleOne (ow j : Nat) : srcCoord ow Config.scaleOne j = (j / ow, j % ow) := by
  simp [srcCoord]

/-- No pixel is filtered, and the source pixel of `j` is `j` itself. -/
theorem roundSample_scaleOne (d : Dims) (rd : Nat → Except Fault Byte) (j : Nat) :
    roundSample d Config.scaleOne d.w rd j = rd j := by
  have hindex : srcIndex d (j / d.w) (j % d.w) = j := Nat.div_add_mod' j d.w
  simp only [roundSample, srcCoord_scaleOne, hindex, lt_irrefl, false_and, if_false]

/-- A legal command that ends in a next state has followed its own rule. -/
theorem bodyOf_of_exec {i : Instr} {s t : State} (h : s.phase ≠ .error) (hl : legalNow i s = true)
    (hexec : exec i s = .next t) : bodyOf i s = .ok t := by
  rw [exec_eq, guarded_legal h hl] at hexec
  exact finish_next.mp hexec

/-- Settles O32. The loop of RESAMPLE stores at `j` what it read at `j`. -/
theorem scaleOnePassthrough : Obligations.ScaleOnePassthrough := by
  intro s t hp hscale _ hexec
  have hbody : resampleBody s = .ok t := bodyOf_of_exec (by simp [hp]) (by simp [legalNow, hp]) hexec
  obtain ⟨a, rnd, ha, hfill, rfl⟩ := resampleBody_ok hbody
  obtain rfl : a = 65536 := Option.some.inj (ha.symm.trans hscale)
  have hone : zextArg 65536 = Config.scaleOne := rfl
  simp only [hone, outDims_scaleOne, roundSample_scaleOne] at hfill ⊢
  refine ⟨rfl, rfl, srcCoord_scaleOne _, fun c j hj => ?_⟩
  obtain ⟨v, hread, hwritten⟩ := (fillPlanes_ok hfill).1 c j hj
  exact hwritten.trans (fetchByte_ok.mp hread).2.symm

/-! ### What the later stages read under the invariant (R14, R24, R91) -/

theorem reached_of_phase {k : Nat} {p : Phase} {s : State} (hp : s.phase = p) (h : k ≤ rank p ∧ p ≠ .error) :
    reached k s := by
  subst hp
  exact h

/-- Past LOAD the three parameters are legal, so NUMINT is defined. -/
theorem Inv.exists_numInt {s : State} (hinv : Inv s) (h : reached 1 s) : ∃ n, numInt s = .ok n := by
  obtain ⟨-, hquant, -⟩ := paramCheck_eq_zero.mp (hinv.done.1 h).1
  obtain ⟨q, hq, hlo, hhi⟩ := quantLegal_iff.mp hquant
  exact ⟨_, numInt_ok.mpr ⟨q, hq, hlo, hhi, rfl⟩⟩

/-- Past PIVOT, where MODE is not -1, PIVOT is a sample value: MODE itself, or the mean where MODE = -2 (R104). -/
theorem Inv.exists_pivotSample {s : State} (hinv : Inv s) (h : reached 2 s) (hlog : modeInt s ≠ some (-1)) :
    ∃ p, pivotSample s = .ok p := by
  obtain ⟨hloaded, hpivoted, -⟩ := hinv.done
  obtain ⟨-, -, hmode⟩ := paramCheck_eq_zero.mp (hloaded ⟨Nat.le_of_succ_le h.1, h.2⟩).1
  obtain ⟨a, ha, hlo, -⟩ := modeLegal_iff.mp hmode
  have hm : modeInt s = some a.toInt := by simp [modeInt, ha]
  obtain ⟨hset, hvalue⟩ := hpivoted h
  obtain ⟨p, hp⟩ := Option.isSome_iff_exists.mp hset
  obtain ⟨hmanual, hauto⟩ := hvalue _ hm p hp
  have hle : p ≤ 255 := (hinv.registers.1 p hp).2
  have hne : a.toInt ≠ -1 := fun he => hlog (he ▸ hm)
  have hnonneg : 0 ≤ p := by omega
  exact ⟨p.toNat, pivotSample_ok.mpr ⟨by rw [hp, Int.toNat_of_nonneg hnonneg], by omega⟩⟩

/-- Past RESAMPLE, NEWSIZE is the size of the output. -/
theorem Inv.newSize_eq {s : State} (hinv : Inv s) (h : reached 3 s) : newSize s = .ok (outSize s) := by
  obtain ⟨-, -, hresampled, -⟩ := hinv.done
  obtain ⟨how, hoh, -⟩ := hresampled h
  exact newSize_ok.mpr ⟨_, _, how, hoh, rfl⟩

/-! ### An empty output (R119) -/

theorem resampleBody_of_empty {s : State} {a : Arg} (ha : s.scale = some a)
    (hempty : (outDims s.dims (zextArg a)).1 * (outDims s.dims (zextArg a)).2 = 0) :
    resampleBody s =
      .ok (finishResample (outDims s.dims (zextArg a)).1 (outDims s.dims (zextArg a)).2 s.rnd s) := by
  simp only [resampleBody, readReg_ok.mpr ha, hempty, fillPlanes, fillMemory]

theorem quantizeBody_of_empty {s : State} (q : Byte → Byte) (hsize : newSize s = .ok 0) :
    quantizeBody q s = .ok (finishQuantize s.qnt s) := by
  simp only [quantizeBody, hsize, quantizePlanes, fillPlanes, fillMemory]

theorem packBody_of_empty {s : State} (hsize : newSize s = .ok 0) : packBody s = .ok (finishPack s.packed s) := by
  simp only [packBody, hsize, packBytes, fillMemory]

theorem exec_resample_of_empty {s : State} {a : Arg} (hp : s.phase = .pivoted) (ha : s.scale = some a)
    (hempty : (outDims s.dims (zextArg a)).1 * (outDims s.dims (zextArg a)).2 = 0) :
    exec .resample s =
      .next (finishResample (outDims s.dims (zextArg a)).1 (outDims s.dims (zextArg a)).2 s.rnd s) :=
  exec_of_body (by simp [hp]) (by simp [legalNow, hp]) (resampleBody_of_empty ha hempty)

section Empty

variable {s : State}

theorem Inv.newSize_of_empty (hinv : Inv s) (hempty : outSize s = 0) (h : reached 3 s) : newSize s = .ok 0 :=
  hempty ▸ hinv.newSize_eq h

theorem Inv.exec_quni_of_empty (hinv : Inv s) (hempty : outSize s = 0) (hp : s.phase = .resampled)
    (huniform : modeInt s = some (-1)) : exec .quni s = .next (finishQuantize s.qnt s) := by
  obtain ⟨n, hn⟩ := hinv.exists_numInt (reached_of_phase hp (by decide))
  have hsize : newSize s = .ok 0 := hinv.newSize_of_empty hempty (reached_of_phase hp (by decide))
  have hbody : quniBody s = .ok (finishQuantize s.qnt s) := by
    simp only [quniBody, hn, quantizeBody_of_empty _ hsize]
  exact exec_of_body (by simp [hp]) (by simp [legalNow, hp, huniform]) hbody

theorem Inv.exec_qlog_of_empty (hinv : Inv s) (hempty : outSize s = 0) (hp : s.phase = .resampled)
    (hlog : modeInt s ≠ some (-1)) : exec .qlog s = .next (finishQuantize s.qnt s) := by
  obtain ⟨n, hn⟩ := hinv.exists_numInt (reached_of_phase hp (by decide))
  obtain ⟨p, hpivot⟩ := hinv.exists_pivotSample (reached_of_phase hp (by decide)) hlog
  have hsize : newSize s = .ok 0 := hinv.newSize_of_empty hempty (reached_of_phase hp (by decide))
  have hbody : qlogBody s = .ok (finishQuantize s.qnt s) := by
    simp only [qlogBody, hn, hpivot, quantizeBody_of_empty _ hsize]
  exact exec_of_body (by simp [hp]) (by simp [legalNow, hp, hlog]) hbody

theorem Inv.exec_pack_of_empty (hinv : Inv s) (hempty : outSize s = 0) (hp : s.phase = .quantized) :
    exec .pack s = .next (finishPack s.packed s) := by
  have hsize : newSize s = .ok 0 := hinv.newSize_of_empty hempty (reached_of_phase hp (by decide))
  exact exec_of_body (by simp [hp]) (by simp [legalNow, hp]) (packBody_of_empty hsize)

end Empty

/-- At 512 by 512 both dimensions are SCALE / 128. -/
theorem outDims_config (u : Nat) : outDims Config.dims u = (u / 128, u / 128) := by
  have hdim : 512 * u / 65536 = u / 128 := Nat.mul_div_mul_left u 128 (m := 512) (by decide)
  exact Prod.ext hdim hdim

theorem outDims_config_empty_iff (u : Nat) :
    (outDims Config.dims u).1 * (outDims Config.dims u).2 = 0 ↔ u ≤ 127 := by
  simp only [outDims_config, mul_self_eq_zero, Nat.div_eq_zero_iff]
  omega

/-- Settles O33. Each stage's loop runs over no index, so it leaves its memory as it is, and the stage writes its registers
and PHASE only. -/
theorem emptyOutputStillCompletes : Obligations.EmptyOutputStillCompletes :=
  ⟨fun _ _ => exec_resample_of_empty,
    fun _ hinv hempty =>
      ⟨hinv.exec_quni_of_empty hempty, hinv.exec_qlog_of_empty hempty, hinv.exec_pack_of_empty hempty⟩,
    outDims_config_empty_iff⟩

end Sys2Proof.Machine
end


section
/-! The uniform quantiser: its levels, its range and its bit form (44_quantizer_uniform_binning.md R131-R133). -/

namespace Sys2Proof.Machine

/-- Level `k` of `n`: the midpoint of bucket `k`, which starts at `k * BITINT` (R133). -/
def uniformLevel (n k : Nat) : Nat := k * bitInt n + bitInt n / 2

/-- A sample goes to the level of its own bucket (R131). -/
theorem quantUniform_eq_uniformLevel (v n : Nat) : quantUniform v n = uniformLevel n (v / bitInt n) := rfl

theorem quantUniform_mono (n : Nat) : Monotone fun v => quantUniform v n := fun _ _ hle =>
  Nat.add_le_add_right (Nat.mul_le_mul_right _ (Nat.div_le_div_right hle)) _

/-- BITINT as a power of two (R132). -/
theorem bitInt_two_pow {q : Nat} (hq : q ≤ 8) : bitInt (2 ^ q) = 2 ^ (8 - q) :=
  Nat.pow_div hq two_pos

theorem bitInt_two_pow_mul {q : Nat} (hq : q ≤ 8) : bitInt (2 ^ q) * 2 ^ q = 256 := by
  rw [bitInt_two_pow hq, ← pow_add, Nat.sub_add_cancel hq]
  rfl

section Levels

variable {n : Nat}

/-- A level lies in its own bucket. -/
theorem uniformLevel_div_bitInt (hpos : 0 < bitInt n) (k : Nat) : uniformLevel n k / bitInt n = k := by
  have hhalf : bitInt n / 2 / bitInt n = 0 := Nat.div_eq_of_lt (Nat.div_lt_self hpos (by decide))
  rw [uniformLevel, Nat.mul_comm, Nat.mul_add_div hpos, hhalf, Nat.add_zero]

/-- Each level is a fixed point of the quantiser. -/
theorem quantUniform_uniformLevel (hpos : 0 < bitInt n) (k : Nat) :
    quantUniform (uniformLevel n k) n = uniformLevel n k := by
  rw [quantUniform_eq_uniformLevel, uniformLevel_div_bitInt hpos]

theorem quantUniform_idempotent (hpos : 0 < bitInt n) (v : Nat) :
    quantUniform (quantUniform v n) n = quantUniform v n :=
  quantUniform_uniformLevel hpos _

theorem half_bitInt_le_quantUniform (v : Nat) : bitInt n / 2 ≤ quantUniform v n := Nat.le_add_left ..

/-! What holds when `n` buckets of one width fill 0..255. -/

variable (hwidth : bitInt n * n = 256)

include hwidth

theorem bitInt_pos : 0 < bitInt n := by
  refine Nat.pos_of_ne_zero fun hzero => ?_
  rw [hzero, Nat.zero_mul] at hwidth
  exact absurd hwidth (by decide)

theorem bucket_lt {v : Nat} (hv : v ≤ 255) : v / bitInt n < n := Nat.div_lt_of_lt_mul (by omega)

/-- The greatest level is that of bucket `n - 1`, which starts at `256 - BITINT` (R133 (a)). -/
theorem uniformLevel_le {k : Nat} (hk : k < n) : uniformLevel n k ≤ 256 - bitInt n + bitInt n / 2 := by
  have hend : (k + 1) * bitInt n ≤ 256 := hwidth ▸ Nat.mul_comm n _ ▸ Nat.mul_le_mul_right _ hk
  have hstart : k * bitInt n ≤ 256 - bitInt n := Nat.le_sub_of_add_le (Nat.succ_mul k _ ▸ hend)
  exact Nat.add_le_add_right hstart _

theorem greatestLevel_le : 256 - bitInt n + bitInt n / 2 ≤ 255 := by
  have hpos : 0 < bitInt n := bitInt_pos hwidth
  have hle : bitInt n ≤ 256 := Nat.div_le_self 256 n
  omega

end Levels

/-- QUANT = 8: buckets of width 1 (R133 (e)). -/
theorem quantUniform_256 (v : Nat) : quantUniform v 256 = v := by
  have hwidth : bitInt 256 = 1 := rfl
  simp [quantUniform, hwidth]

/-- QUANT = 1: two buckets of width 128 (R133 (f)). -/
theorem quantUniform_two {v : Nat} (hv : v ≤ 255) : quantUniform v 2 = if v ≤ 127 then 64 else 192 := by
  show v / 128 * 128 + 64 = _
  split <;> omega

/-- Settles O37. The quantiser sends a sample to the level of its bucket, and sends each of the `n` levels, all of them at
most 255, to itself. -/
theorem uniformQuantizerProperties : Obligations.UniformQuantizerProperties := by
  refine ⟨fun q _ hq v hv => ?_, fun q _ hq k hk => ?_, fun v hv => ⟨quantUniform_256 v, quantUniform_two hv⟩⟩
  · have hwidth : bitInt (2 ^ q) * 2 ^ q = 256 := bitInt_two_pow_mul hq
    have hbucket : v / bitInt (2 ^ q) < 2 ^ q := bucket_lt hwidth hv
    exact ⟨half_bitInt_le_quantUniform v, uniformLevel_le hwidth hbucket, greatestLevel_le hwidth,
      fun _ hle => quantUniform_mono _ hle, quantUniform_idempotent (bitInt_pos hwidth) v, _, hbucket, rfl⟩
  · have hwidth : bitInt (2 ^ q) * 2 ^ q = 256 := bitInt_two_pow_mul hq
    exact ⟨uniformLevel (2 ^ q) k, (uniformLevel_le hwidth hk).trans (greatestLevel_le hwidth),
      quantUniform_uniformLevel (bitInt_pos hwidth) k⟩

/-! ### The bit form (R132) -/

/-- With buckets of width `2 ^ k` the start of a bucket has its low `k` bits clear, and half a width lies in those bits. -/
theorem quantUniform_eq_or {n k : Nat} (hwidth : bitInt n = 2 ^ k) (v : Nat) :
    quantUniform v n = v >>> k <<< k ||| 2 ^ k / 2 := by
  have hhalf : 2 ^ k / 2 < 2 ^ k := Nat.div_lt_self (Nat.two_pow_pos k) (by decide)
  rw [← Nat.shiftLeft_add_eq_or_of_lt hhalf, Nat.shiftLeft_eq, Nat.shiftRight_eq_div_pow, quantUniform, hwidth]

/-- Shifting the low `k` bits out and back clears them, as the mask does. -/
theorem ofNat_shiftRight_shiftLeft (v : Byte) (k : Nat) :
    BitVec.ofNat 8 (v.toNat >>> k <<< k) = v &&& ~~~(BitVec.ofNat 8 (2 ^ k - 1)) := by
  refine BitVec.eq_of_getLsbD_eq fun i hi => ?_
  simp only [BitVec.getLsbD_ofNat, BitVec.getLsbD_and, BitVec.getLsbD_not, Nat.testBit_shiftLeft,
    Nat.testBit_shiftRight, Nat.testBit_two_pow_sub_one, hi, decide_true, Bool.true_and]
  by_cases hik : k ≤ i
  · simp [hik, Nat.not_lt.mpr hik, BitVec.getLsbD]
  · simp [hik, Nat.lt_of_not_le hik]

/-- Settles O36. BITINT is 2^(8 - q), so the division is a shift and the sum is an OR. -/
theorem uniformQuantizerBitForm : Obligations.UniformQuantizerBitForm := by
  intro v q _ hq
  rw [quantUniformByte, quantUniform_eq_or (bitInt_two_pow hq), BitVec.ofNat_or, ofNat_shiftRight_shiftLeft]

end Sys2Proof.Machine
end

section
/-! The logarithmic quantiser keeps the pivot itself (45_quantizer_logarithmic_pivot.md R142). -/

namespace Sys2Proof.Machine

/-- At the pivot the short-circuit answers before any interval is computed, so `n` plays no part (R142). -/
@[simp] theorem quantLog_self (p n : Nat) : quantLog p p n = p := if_pos rfl

/-- Settles O40. Equality with the pivot is all the short-circuit tests. -/
theorem pivotIsAFixedPoint : Obligations.PivotIsAFixedPoint := quantLog_self

end Sys2Proof.Machine
end

section
/-! RUN is the staged sequence (47_run.md R171). Between two stages RUN holds the very state that the sequence holds between
two words: that state's PHASE makes the next word legal, and MODE, which chooses the quantiser's word, is as before. -/

namespace Sys2Proof.Machine

/-! ### One word of a sequence (R72, R190) -/

/-- In ERROR the remaining words are ignored. -/
theorem runWords_of_error {s : State} (h : s.phase = .error) (ws : List Word) : runWords ws s = .next s := by
  induction ws with
  | nil => rfl
  | cons w ws ih =>
    have hword : runWord w s = .next s := if_pos h
    simp only [runWords, hword, ih]

/-- The word of a legal command follows the command's own rule. -/
theorem runWord_of_legal {w : Word} {i : Instr} {s : State} (hw : decode w = .ok i) (h : s.phase ≠ .error)
    (hl : legalNow i s = true) : runWord w s = finish (bodyOf i s) := by
  rw [runWord, if_neg h, hw, ← guarded_legal h hl, ← exec_eq]

/-- One body after another is one word after another, where the first word is legal and the second body agrees with the
remaining words on every state that the first leaves without an error. -/
theorem finish_thenBody_eq_runWords {w : Word} {i : Instr} {s : State} {f g : State → Except Fault State}
    {ws : List Word} (hw : decode w = .ok i) (h : s.phase ≠ .error) (hl : legalNow i s = true) (hf : bodyOf i s = f s)
    (hrest : ∀ t, f s = .ok t → t.phase ≠ .error → finish (g t) = runWords ws t) :
    finish (thenBody f g s) = runWords (w :: ws) s := by
  have hword : runWord w s = finish (f s) := hf ▸ runWord_of_legal hw h hl
  simp only [runWords, hword, thenBody]
  cases hfirst : f s with
  | error e => rfl
  | ok t =>
    by_cases ht : t.phase = .error
    · simp only [ht, if_true, finish, runWords_of_error ht]
    · simp only [if_neg ht]
      exact hrest t hfirst ht

/-! ### The quantiser that MODE selects (R170) -/

/-- The command of the quantiser. -/
def quantizerInstr (s : State) : Instr := if modeInt s = some (-1) then .quni else .qlog

/-- The word that `stagedWords` holds for the quantiser. -/
def quantizerWord (s : State) : Word := if modeInt s = some (-1) then 0x13000000 else 0x14000000

theorem decode_quantizerWord (s : State) : decode (quantizerWord s) = .ok (quantizerInstr s) := by
  unfold quantizerWord quantizerInstr
  split <;> rfl

theorem bodyOf_quantizerInstr (s : State) : bodyOf (quantizerInstr s) s = quantizerBody s := by
  unfold quantizerInstr quantizerBody
  split <;> rfl

theorem legalNow_quantizerInstr {s : State} (h : s.phase = .resampled) : legalNow (quantizerInstr s) s = true := by
  unfold quantizerInstr
  split
  · next hm => simp [legalNow, h, hm]
  · next hm => simp [legalNow, h, hm]

/-! ### The rest of RUN from each stage on, last stage first: each `finish_from…` is the tail of `runBody` that starts there -/

theorem finish_packBody_eq_runWords {s : State} (h : s.phase = .quantized) :
    finish (packBody s) = runWords [0x15000000] s := by
  have hword : runWord 0x15000000 s = finish (packBody s) :=
    runWord_of_legal (i := .pack) rfl (by simp [h]) (by simp [legalNow, h])
  rw [runWords, hword]
  cases packBody s <;> rfl

theorem finish_fromQuantize_eq_runWords {s : State} (h : s.phase = .resampled) :
    finish (thenBody quantizerBody packBody s) = runWords [quantizerWord s, 0x15000000] s := by
  refine finish_thenBody_eq_runWords (decode_quantizerWord s) (by simp [h]) (legalNow_quantizerInstr h)
    (bodyOf_quantizerInstr s) fun t ht _ => ?_
  obtain ⟨qnt, rfl⟩ := quantizerBody_ok ht
  exact finish_packBody_eq_runWords rfl

theorem finish_fromResample_eq_runWords {s : State} (h : s.phase = .pivoted) :
    finish (thenBody resampleBody (thenBody quantizerBody packBody) s) =
      runWords [0x12000000, quantizerWord s, 0x15000000] s := by
  refine finish_thenBody_eq_runWords (i := .resample) rfl (by simp [h]) (by simp [legalNow, h]) rfl fun t ht _ => ?_
  obtain ⟨_, _, -, -, rfl⟩ := resampleBody_ok ht
  exact finish_fromQuantize_eq_runWords rfl

theorem finish_fromPivot_eq_runWords {s : State} (h : s.phase = .loaded) :
    finish (thenBody pivotBody (thenBody resampleBody (thenBody quantizerBody packBody)) s) =
      runWords [0x11000000, 0x12000000, quantizerWord s, 0x15000000] s := by
  refine finish_thenBody_eq_runWords (i := .pivot) rfl (by simp [h]) (by simp [legalNow, h]) rfl fun t ht _ => ?_
  obtain ⟨_, -, rfl⟩ := pivotBody_ok ht
  exact finish_fromResample_eq_runWords rfl

theorem finish_runBody_eq_runWords {s : State} (h : s.phase = .idle) : finish (runBody s) = runWords (stagedWords s) s := by
  refine finish_thenBody_eq_runWords (i := .load) rfl (by simp [h]) (by simp [legalNow, h]) rfl fun t ht hok => ?_
  obtain ⟨-, rfl⟩ | ⟨-, -, rfl⟩ | ⟨_, _, -, -, -, rfl⟩ := loadBody_ok ht
  · exact absurd rfl hok
  · exact absurd rfl hok
  · exact finish_fromPivot_eq_runWords rfl

/-- Settles O47. In IDLE the word of RUN is legal, and its body is the staged sequence, stage by stage. -/
theorem runEqualsTheStagedCommands : Obligations.RunEqualsTheStagedCommands := by
  intro s h
  have hword : runWord 0x1F000000 s = finish (runBody s) :=
    runWord_of_legal (i := .run) rfl (by simp [h]) (by simp [legalNow, h])
  exact hword.trans (finish_runBody_eq_runWords h)

end Sys2Proof.Machine
end

section
/-! How errors are raised: what `raise` writes, which check raises which error, and that ERROR is entered through `raise`
alone and left by no word (60_exceptions.md R181, R183, R188-R190). -/

namespace Sys2Proof.Machine

variable {i : Instr} {s t : State}

/-! ### SequenceError (R183) -/

/-- Where the condition in the command's row of the table of legal phases fails, the command raises SequenceError. -/
theorem exec_of_not_condition {p : Prop} [Decidable p] (hne : s.phase ≠ .error) (hl : legalNow i s = decide p)
    (hp : ¬p) : exec i s = .next (raise .sequenceError (encode i) s) :=
  exec_of_not_legal hne (hl.trans (decide_eq_false hp))

/-- Settles O12. Each command's condition is its row of the table; NOP's row has none. -/
theorem sequenceErrorOutsideTheLegalPhase : Obligations.SequenceErrorOutsideTheLegalPhase := by
  intro s hne
  refine ⟨fun _ => exec_of_not_condition hne rfl, fun _ => exec_of_not_condition hne rfl,
    fun _ => exec_of_not_condition hne rfl, exec_of_not_condition hne rfl, exec_of_not_condition hne rfl,
    exec_of_not_condition hne rfl, fun hquni => ?_, fun hqlog => ?_, exec_of_not_condition hne rfl,
    exec_of_not_condition hne rfl, exec_of_body hne rfl rfl⟩
  · exact exec_of_not_condition hne rfl (not_and_or.mpr hquni)
  · exact exec_of_not_condition hne rfl (not_and_or.mpr (hqlog.imp_right not_not_intro))

/-! ### Errors are precise (R188, R189) -/

/-- A word outside ERROR is illegal, or does what its command does. -/
theorem runWord_cases {w : Word} (h : runWord w s = .next t) (hne : s.phase ≠ .error) :
    t = raise .illegalCommand w s ∨ ∃ i, exec i s = .next t := by
  rw [runWord, if_neg hne] at h
  cases hw : decode w with
  | error e =>
    rw [hw] at h
    cases h
    exact .inl rfl
  | ok i =>
    rw [hw] at h
    exact .inr ⟨i, h⟩

/-- A command enters ERROR through `raise` alone: every other effect keeps PHASE or ends in the phase of its stage. -/
theorem Effect.exists_raise (h : Effect i s t) (hne : s.phase ≠ .error) (ht : t.phase = .error) :
    ∃ e info, t = raise e info s := by
  cases h with
  | raised _ _ e info => exact ⟨e, info, rfl⟩
  | ignored | nop | setscale | setquant | setmode => exact absurd ht hne
  | load | pivot | resample | quni | qlog | pack | run => nomatch ht

/-- Settles O14. Commands and illegal words enter ERROR through `raise`, which writes those three registers. -/
theorem errorsArePrecise : Obligations.ErrorsArePrecise := by
  intro s t hne ht hstep
  have hraise : ∃ e info, t = raise e info s := by
    obtain ⟨i, hi⟩ | ⟨w, hw⟩ := hstep
    · exact (exec_effect hi).exists_raise hne ht
    · obtain rfl | ⟨i, hi⟩ := runWord_cases hw hne
      · exact ⟨_, _, rfl⟩
      · exact (exec_effect hi).exists_raise hne ht
  obtain ⟨e, info, rfl⟩ := hraise
  rfl

/-- Settles O11. `raise` is those three writes, and the codes are the table of R180. -/
theorem raiseWritesThreeRegisters : Obligations.RaiseWritesThreeRegisters :=
  ⟨fun _ _ _ => rfl, rfl, rfl, rfl, rfl, rfl⟩

/-! ### ERROR is sticky (R190) -/

theorem runWord_of_error (h : s.phase = .error) (w : Word) : runWord w s = .next s := if_pos h

theorem exec_of_error (h : s.phase = .error) (i : Instr) : exec i s = .next s := by
  rw [exec_eq, guarded_error h]

/-- Settles O13. The port and the dispatch both test for ERROR first; the successful end is DONE, another phase. -/
theorem errorIsSticky : Obligations.ErrorIsSticky := fun s h =>
  ⟨runWord_of_error h, exec_of_error h, by simp [h]⟩

/-! ### ParamError (R181) -/

/-- The check comes before the stream is examined. -/
theorem loadBody_of_badParameters (h : paramCheck s ≠ 0) :
    loadBody s = .ok (raise .paramError (paramInfo (paramCheck s)) s) := if_pos h

/-- One body after another ends with the error that the first raises. -/
theorem thenBody_of_raised {f : State → Except Fault State} (g : State → Except Fault State) {e : ErrCode} {info : Word}
    (h : f s = .ok (raise e info s)) : thenBody f g s = .ok (raise e info s) := by
  simp [thenBody, h]

/-- Settles O16. LOAD's body raises the error, and it is the first body of RUN. -/
theorem badParametersRaiseParamError : Obligations.BadParametersRaiseParamError := by
  intro s hidle hbad
  have hload : loadBody s = .ok (raise .paramError (paramInfo (paramCheck s)) s) := loadBody_of_badParameters hbad
  have hrun : runBody s = .ok (raise .paramError (paramInfo (paramCheck s)) s) := thenBody_of_raised _ hload
  exact ⟨exec_in_idle rfl hload hidle, exec_in_idle rfl hrun hidle⟩

end Sys2Proof.Machine
end

section
/-! Words of commands and of assembler text: what `encode` writes `decode` reads back (30_encoding.md R62, R63,
R73, R74). -/

namespace Sys2Proof

open Laws.Fields (opcOf)

/-- The immediate of a well-formed command fits the field ARG, read as its format reads it (R62). -/
theorem Instr.exists_operandIn_of_wellFormed {i : Instr} (h : i.wellFormed = true) : ∃ a, i.operandIn a := by
  cases i with
  | setscale imm | setquant imm => exact ⟨unsignedArg imm, Machine.toNat_unsignedArg (of_decide_eq_true h)⟩
  | setmode imm =>
    obtain ⟨hlo, hhi⟩ := of_decide_eq_true h
    exact ⟨signedArg imm, Machine.toInt_signedArg hlo hhi⟩
  | _ => exact ⟨0, rfl⟩

/-- Settles O1. The word of a well-formed command has the command's code as its OPC, and its ARG carries the operand. -/
theorem decodeOfEncode : Obligations.DecodeOfEncode := by
  intro i hwf
  obtain ⟨a, ha⟩ := Instr.exists_operandIn_of_wellFormed hwf
  have hword : encode i = mkWord (opcOf i) a := encode_of_operandIn ha
  refine decode_of_fields ?_ ?_
  · rw [hword, opc_mkWord]
  · rwa [hword, arg_mkWord]

/-- Settles O5. Each word is put together from its OPC and its ARG. -/
theorem specWordsDecode : Obligations.SpecWordsDecode := by
  unfold Obligations.SpecWordsDecode
  decide

/-- Settles O18. NOP is legal in every phase and its own rule is the identity; its word has OPC = 0 and ARG = 0. -/
theorem nopChangesNothing : Obligations.NopChangesNothing := by
  refine ⟨fun s => ?_, fun w => ⟨fun h => (encode_of_decode h).symm, fun h => h ▸ rfl⟩⟩
  by_cases herror : s.phase = .error
  · exact Machine.exec_of_error herror .nop
  · exact Machine.exec_of_body herror rfl rfl

/-! ### Assembler text (R73, R74) -/

/-- Settles O6. The expansions are the four rows of `expand`; the words of a text, and the errors, are what the
assembler computes. -/
theorem assemblerWords : Obligations.AssemblerWords := by
  refine ⟨fun _ _ _ => rfl, fun _ _ _ => rfl, rfl, rfl, ?_⟩
  decide

end Sys2Proof
end

section
/-! One step of the machine is one action of the host (70_reset_and_hazards.md R217; 10_state.md R35). -/

namespace Sys2Proof.Machine

variable {s t : State} {rest : List HostAction}

/-! ### The step takes the host's first action -/

theorem step_of_idleHost (h : s.host = []) : step s = .next s := by
  simp only [step, hostStep, h]

theorem step_of_action {a : HostAction} (h : s.host = a :: rest) : step s = takeAction a (withHost rest s) := by
  simp only [step, hostStep, h]

/-- The word of a command is executed as the command; in ERROR both change nothing (R72, R190). -/
theorem runWord_of_decode {w : Word} {i : Instr} (hw : decode w = .ok i) (s : State) : runWord w s = exec i s := by
  by_cases herror : s.phase = .error
  · rw [runWord_of_error herror, exec_of_error herror]
  · rw [runWord, if_neg herror, hw]

theorem decode_of_decodeTableWord {nbits w : Nat} {i : Instr} (h : decodeTableWord nbits w = some i) :
    decode (tableWord nbits w) = .ok i := by
  unfold decodeTableWord at h
  cases hw : decode (tableWord nbits w) with
  | error e => rw [hw] at h; cases h
  | ok j => rw [hw] at h; cases h; rfl

/-- Settles O7. The step hands the first action's word to the port; the action that `withFetchWord` puts in front is
used up by the step, which leaves the state that was there before. -/
theorem stepRunsTheDecodedCommand : Obligations.StepRunsTheDecodedCommand := by
  refine ⟨fun s w rest hhost => ?_, fun s nbits w i hdecode => ?_⟩
  · have hstep : step s = runWord w (withHost rest s) := step_of_action hhost
    exact ⟨hstep, fun i hi => hstep.trans (runWord_of_decode hi _)⟩
  · have hstep : step (s.withFetchWord nbits w) = runWord (tableWord nbits w) s :=
      step_of_action (s := s.withFetchWord nbits w) rfl
    exact hstep.trans (runWord_of_decode (decode_of_decodeTableWord hdecode) s)

theorem takeAction_readResult {k : Nat} {v : Byte} (h : hostResult s k = .ok v) :
    takeAction (.readResult k) s = .next s := by
  simp only [takeAction, h]

/-- Settles O8. Each action is one row of `takeAction`; a result read looks at PHASE, OUTW, OUTH and PACKED, which the
list of actions is no part of. -/
theorem stepTakesTheHostAction : Obligations.StepTakesTheHostAction := fun s rest =>
  ⟨step_of_idleHost, step_of_action, fun _ => step_of_action, step_of_action, fun k v hhost hread => by
    have hread : hostResult (withHost rest s) k = .ok v := hread
    exact (step_of_action hhost).trans (takeAction_readResult hread)⟩

/-! ### The result read (R35, R214) -/

theorem hostResult_outsideDone (k : Nat) (h : s.phase ≠ .done) : hostResult s k = .error .resultReadOutsideDone :=
  if_neg h

theorem hostResult_inRange {ow oh k : Nat} {v : Byte} (h : s.phase = .done) (hw : s.outw = some ow)
    (hh : s.outh = some oh) (hread : Memory.read s.packed k = some v) (hk : k < 3 * (ow * oh)) :
    hostResult s k = .ok v := by
  simp only [hostResult, h, hw, hh, hread, if_true, if_pos hk]

theorem hostResult_outOfRange {ow oh k : Nat} (h : s.phase = .done) (hw : s.outw = some ow) (hh : s.outh = some oh)
    (hk : 3 * (ow * oh) ≤ k) : hostResult s k = .error .resultReadOutOfRange := by
  simp only [hostResult, h, hw, hh, if_true]
  cases Memory.read s.packed k with
  | none => rfl
  | some v => exact if_neg (Nat.not_lt.mpr hk)

/-- In DONE the invariant has OUTW and OUTH set and PACKED written below the size of the output. -/
theorem Inv.output_of_done (hinv : Inv s) (h : s.phase = .done) :
    ∃ ow oh, s.outw = some ow ∧ s.outh = some oh ∧ outSize s = ow * oh ∧ Memory.filled s.packed (3 * outSize s) := by
  obtain ⟨-, -, hresampled, -, hpacked⟩ := hinv.done
  obtain ⟨hw, hh, -⟩ := hresampled (reached_of_phase h (by decide))
  exact ⟨_, _, hw, hh, rfl, hpacked (reached_of_phase h (by decide))⟩

theorem Inv.exists_hostResult {k : Nat} (hinv : Inv s) (h : s.phase = .done) (hk : k < 3 * outSize s) :
    ∃ v, hostResult s k = .ok v ∧ Memory.read s.packed k = some v := by
  obtain ⟨ow, oh, hw, hh, hsize, hfilled⟩ := hinv.output_of_done h
  obtain ⟨v, hv⟩ := Option.isSome_iff_exists.mp (hfilled k hk)
  exact ⟨v, hostResult_inRange h hw hh hv (hsize ▸ hk), hv⟩

theorem Inv.hostResult_outOfRange {k : Nat} (hinv : Inv s) (h : s.phase = .done) (hk : 3 * outSize s ≤ k) :
    hostResult s k = .error .resultReadOutOfRange := by
  obtain ⟨ow, oh, hw, hh, hsize, -⟩ := hinv.output_of_done h
  exact Machine.hostResult_outOfRange h hw hh (hsize ▸ hk)

/-- Settles O55. The status read copies the registers; the result read answers in DONE alone, and there it is decided by
the size of the output, below which PACKED is written. -/
theorem hostReads : Obligations.HostReads := fun _ k =>
  ⟨rfl, hostResult_outsideDone k, Inv.exists_hostResult, Inv.hostResult_outOfRange⟩

end Sys2Proof.Machine
end

section
/-! Who writes what: each register, each memory and PHASE, read off the effects of the commands (10_state.md R15-R28;
20_memory.md R40). -/

namespace Sys2Proof.Machine

variable {i : Instr} {s t : State}

/-! ### Registers (R15-R19, R21-R23, R84) -/

theorem Effect.scale_eq (h : Effect i s t) (hi : ∀ u, i ≠ .setscale u) : t.scale = s.scale := by
  cases h with
  | setscale u => exact absurd rfl (hi u)
  | _ => rfl

theorem Effect.quant_eq (h : Effect i s t) (hi : ∀ u, i ≠ .setquant u) : t.quant = s.quant := by
  cases h with
  | setquant u => exact absurd rfl (hi u)
  | _ => rfl

theorem Effect.mode_eq (h : Effect i s t) (hi : ∀ m, i ≠ .setmode m) : t.mode = s.mode := by
  cases h with
  | setmode m => exact absurd rfl (hi m)
  | _ => rfl

theorem Effect.pivot_eq (h : Effect i s t) (hpivot : i ≠ .pivot) (hrun : i ≠ .run) : t.pivot = s.pivot := by
  cases h with
  | pivot => exact absurd rfl hpivot
  | run => exact absurd rfl hrun
  | _ => rfl

theorem Effect.outDims_eq (h : Effect i s t) (hresample : i ≠ .resample) (hrun : i ≠ .run) :
    t.outw = s.outw ∧ t.outh = s.outh := by
  cases h with
  | resample => exact absurd rfl hresample
  | run => exact absurd rfl hrun
  | _ => exact ⟨rfl, rfl⟩

theorem Effect.trunc_eq (h : Effect i s t) (hload : i ≠ .load) (hrun : i ≠ .run) : t.trunc = s.trunc := by
  cases h with
  | load => exact absurd rfl hload
  | run => exact absurd rfl hrun
  | _ => rfl

/-- ERR and ERRINFO are written where an error is raised, which ends in ERROR. -/
theorem Effect.err_eq (h : Effect i s t) (ht : t.phase ≠ .error) : t.err = s.err ∧ t.errinfo = s.errinfo := by
  cases h with
  | raised => exact absurd rfl ht
  | _ => exact ⟨rfl, rfl⟩

/-- W and H, the stream and the host's coming actions are no state of the engine. -/
theorem Effect.environment_eq (h : Effect i s t) : t.dims = s.dims ∧ t.input = s.input ∧ t.host = s.host := by
  cases h <;> exact ⟨rfl, rfl, rfl⟩

/-- Settles O48. Every next state is an effect of the command, and each effect names the registers it writes. -/
theorem registersHaveTheirOnlyWriters : Obligations.RegistersHaveTheirOnlyWriters := by
  intro i s t hexec
  have heffect : Effect i s t := exec_effect hexec
  exact ⟨heffect.scale_eq, heffect.quant_eq, heffect.mode_eq, heffect.pivot_eq, heffect.outDims_eq, heffect.trunc_eq,
    heffect.err_eq, heffect.environment_eq⟩

/-! ### Memories (R25-R28) -/

theorem Effect.src_eq (h : Effect i s t) (hload : i ≠ .load) (hrun : i ≠ .run) : t.src = s.src := by
  cases h with
  | load => exact absurd rfl hload
  | run => exact absurd rfl hrun
  | _ => rfl

theorem Effect.rnd_eq (h : Effect i s t) (hresample : i ≠ .resample) (hrun : i ≠ .run) : t.rnd = s.rnd := by
  cases h with
  | resample => exact absurd rfl hresample
  | run => exact absurd rfl hrun
  | _ => rfl

theorem Effect.qnt_eq (h : Effect i s t) (hquni : i ≠ .quni) (hqlog : i ≠ .qlog) (hrun : i ≠ .run) : t.qnt = s.qnt := by
  cases h with
  | quni => exact absurd rfl hquni
  | qlog => exact absurd rfl hqlog
  | run => exact absurd rfl hrun
  | _ => rfl

theorem Effect.packed_eq (h : Effect i s t) (hpack : i ≠ .pack) (hrun : i ≠ .run) : t.packed = s.packed := by
  cases h with
  | pack => exact absurd rfl hpack
  | run => exact absurd rfl hrun
  | _ => rfl

/-- Settles O49. An effect that does not write a memory leaves it the same, at every location. -/
theorem memoriesHaveTheirOnlyWriters : Obligations.MemoriesHaveTheirOnlyWriters := by
  intro i s t hexec
  have heffect : Effect i s t := exec_effect hexec
  exact ⟨fun hload hrun c k => by rw [heffect.src_eq hload hrun],
    fun hresample hrun c k => by rw [heffect.rnd_eq hresample hrun],
    fun hquni hqlog hrun c k => by rw [heffect.qnt_eq hquni hqlog hrun],
    fun hpack hrun k => by rw [heffect.packed_eq hpack hrun]⟩

/-! ### PHASE (R20, R211) -/

/-- A stage ends in the phase after the one it starts from, RUN goes from IDLE to DONE, an error to ERROR; the rest
stay. -/
theorem Effect.phase_cases (h : Effect i s t) :
    t.phase = s.phase ∨ t.phase = .error ∨ rank t.phase = rank s.phase + 1 ∨
      (i = .run ∧ s.phase = .idle ∧ t.phase = .done) := by
  cases h with
  | ignored | nop | setscale | setquant | setmode => exact .inl rfl
  | raised => exact .inr (.inl rfl)
  | load _ _ _ hp | pivot _ _ hp | resample _ _ _ _ hp | quni _ _ hp | qlog _ _ hp | pack _ _ hp =>
    exact .inr (.inr (.inl (by rw [hp]; rfl)))
  | run _ _ _ _ _ _ _ _ _ hp => exact .inr (.inr (.inr ⟨rfl, hp, rfl⟩))

theorem Effect.idle_of_idle (h : Effect i s t) (ht : t.phase = .idle) : s.phase = .idle := by
  cases h with
  | ignored | nop | setscale | setquant | setmode => exact ht
  | raised | load | pivot | resample | quni | qlog | pack | run => nomatch ht

theorem Effect.error_of_error (h : Effect i s t) (hs : s.phase = .error) : t.phase = .error := by
  cases h with
  | ignored | nop | setscale | setquant | setmode => exact hs
  | raised => rfl
  | load _ _ _ hp | pivot _ _ hp | resample _ _ _ _ hp | quni _ _ hp | qlog _ _ hp | pack _ _ hp
  | run _ _ _ _ _ _ _ _ _ hp => rw [hs] at hp; nomatch hp

/-- LOAD and RUN succeed from IDLE alone, and leave it. -/
theorem Effect.leaves_idle (h : Effect i s t) (hi : i = .load ∨ i = .run) (ht : t.phase ≠ .error) :
    s.phase = .idle ∧ t.phase ≠ .idle := by
  cases h with
  | ignored _ _ hp => exact absurd hp ht
  | raised => exact absurd rfl ht
  | load _ _ _ hp | run _ _ _ _ _ _ _ _ _ hp => exact ⟨hp, nofun⟩
  | _ => simp at hi

/-- Settles O51. Every next state is an effect of the command. -/
theorem phaseOnlyMovesForward : Obligations.PhaseOnlyMovesForward := by
  intro i s t hexec
  have heffect : Effect i s t := exec_effect hexec
  exact ⟨heffect.phase_cases, heffect.idle_of_idle, heffect.error_of_error, heffect.leaves_idle⟩

/-- No row of the table of legal phases but NOP's has DONE (R71). -/
theorem legalNow_of_done (h : s.phase = .done) (hi : i ≠ .nop) : legalNow i s = false := by
  cases i with
  | nop => exact absurd rfl hi
  | _ => simp [legalNow, h]

/-- Settles O52. A command that is not legal raises SequenceError, which writes no memory. -/
theorem onlyNopIsLegalInDone : Obligations.OnlyNopIsLegalInDone := fun _ _ hdone hi =>
  exec_of_not_legal (by simp [hdone]) (legalNow_of_done hdone hi)

end Sys2Proof.Machine
end

section
/-! What a filling loop leaves behind, as sample values: the integer 0..255 at each written index (20_memory.md R42,
R45). -/

namespace Sys2Proof.Machine

/-- Every index below `n` of each memory is written and holds the sample that `px` names. -/
def Planes.Holds (p : Planes) (n : Nat) (px : Channel → Nat → Nat) : Prop :=
  ∀ c, ∀ i < n, ∃ b, Memory.read (planeOf p c) i = some b ∧ b.toNat = px c i

/-- `p'` is `p` with the samples `px` written below `n`, by a loop over memories of capacity `cap`. -/
structure Planes.FilledWith (p p' : Planes) (cap n : Nat) (px : Channel → Nat → Nat) : Prop where
  holds : Planes.Holds p' n px
  rest : ∀ c i, n ≤ i → Memory.read (planeOf p' c) i = Memory.read (planeOf p c) i
  wf : Planes.wf p → Planes.wf p'
  within : Planes.within p cap → Planes.within p' cap

theorem sampleAt_of_read {m : Memory} {i : Nat} {b : Byte} (h : Memory.read m i = some b) : sampleAt m i = b.toNat := by
  simp [sampleAt, h]

section Holds

variable {p : Planes} {n : Nat} {px : Channel → Nat → Nat}

theorem Planes.Holds.filled (h : Planes.Holds p n px) : Planes.filled p n :=
  (Planes.filled_iff p n).mpr fun c i hi => by
    obtain ⟨b, hb, -⟩ := h c i hi
    simp [hb]

theorem Planes.Holds.sampleAt_eq (h : Planes.Holds p n px) (c : Channel) {i : Nat} (hi : i < n) :
    sampleAt (planeOf p c) i = px c i := by
  obtain ⟨b, hb, hpx⟩ := h c i hi
  rw [sampleAt_of_read hb, hpx]

/-- A sample is at most 255. -/
theorem Planes.Holds.le_255 (h : Planes.Holds p n px) : ∀ c, ∀ i < n, px c i ≤ 255 := fun c i hi => by
  obtain ⟨b, -, hpx⟩ := h c i hi
  exact hpx ▸ Nat.le_of_lt_succ b.isLt

/-- Written memories hold their own samples. -/
theorem Planes.holds_of_filled (h : Planes.filled p n) : Planes.Holds p n fun c => sampleAt (planeOf p c) := by
  intro c i hi
  obtain ⟨b, hb⟩ := Option.isSome_iff_exists.mp ((Planes.filled_iff p n).mp h c i hi)
  exact ⟨b, hb, (sampleAt_of_read hb).symm⟩

/-- A byte read from written memories inside the capacity. -/
theorem Planes.Holds.fetchByte_eq (h : Planes.Holds p n px) {cap : Nat} (hn : n ≤ cap) (c : Channel) {i : Nat}
    (hi : i < n) : ∃ b, fetchByte cap (planeOf p c) i = .ok b ∧ b.toNat = px c i := by
  obtain ⟨b, hb, hpx⟩ := h c i hi
  exact ⟨b, fetchByte_ok.mpr ⟨Nat.lt_of_lt_of_le hi hn, hb⟩, hpx⟩

end Holds

/-- The filling loop completes and leaves the samples of the values it is given. -/
theorem fillPlanes_filledWith {cap n : Nat} {f : Channel → Nat → Except Fault Byte} {px : Channel → Nat → Nat}
    (p : Planes) (hn : n ≤ cap) (hf : ∀ c, ∀ i < n, ∃ b, f c i = .ok b ∧ b.toNat = px c i) :
    ∃ p', fillPlanes cap f n p = .ok p' ∧ Planes.FilledWith p p' cap n px := by
  obtain ⟨p', hfill⟩ := fillPlanes_complete p hn fun c i hi => (hf c i hi).imp fun _ => And.left
  obtain ⟨hlt, hge, hwf, hwithin⟩ := fillPlanes_ok hfill
  refine ⟨p', hfill, fun c i hi => ?_, hge, hwf, hwithin⟩
  obtain ⟨v, hv, hread⟩ := hlt c i hi
  obtain ⟨b, hb, hpx⟩ := hf c i hi
  obtain rfl : v = b := Except.ok.inj (hv.symm.trans hb)
  exact ⟨v, hread, hpx⟩

/-- The loop over the channels reads its values only below `n`. -/
theorem fillPlanes_congr {cap n : Nat} {f g : Channel → Nat → Except Fault Byte} (p : Planes)
    (h : ∀ c, ∀ i < n, f c i = g c i) : fillPlanes cap f n p = fillPlanes cap g n p := by
  simp only [fillPlanes, fillMemory_congr _ (h .r), fillMemory_congr _ (h .g), fillMemory_congr _ (h .b)]

end Sys2Proof.Machine
end

section
/-! LOAD: the planes, the stream it reads, and what it takes for its errors (41_planar_rgb_loader.md R90-R95). -/

namespace Sys2Proof.Machine

variable {s t : State} {bytes : List Byte}

theorem planeByte_eq_getD (bytes : List Byte) (n : Nat) (c : Channel) (i : Nat) :
    planeByte bytes n c i = (bytes[channelIndex c * n + i]?).getD 0 := by
  unfold planeByte streamRead
  cases bytes[channelIndex c * n + i]? <;> rfl

theorem toNat_planeByte (bytes : List Byte) (n : Nat) (c : Channel) (i : Nat) :
    (planeByte bytes n c i).toNat = streamSample bytes n c i :=
  congrArg BitVec.toNat (planeByte_eq_getD bytes n c i)

theorem loadBody_of_planes {src : Planes} (hparams : paramCheck s = 0) (hinput : s.input = some bytes)
    (hsrc : loadPlanes bytes s.dims.samples s.src = .ok src) :
    loadBody s = .ok (finishLoad src (truncFlag bytes s.dims.samples) s) := by
  simp [loadBody, hparams, hinput, hsrc]

/-- LOAD completes with the samples of the stream in SRC. -/
theorem loadBody_filledWith (hparams : paramCheck s = 0) (hinput : s.input = some bytes) :
    ∃ src, loadBody s = .ok (finishLoad src (truncFlag bytes s.dims.samples) s) ∧
      Planes.FilledWith s.src src s.dims.samples s.dims.samples (streamSample bytes s.dims.samples) := by
  obtain ⟨src, hsrc, hfill⟩ := fillPlanes_filledWith (px := streamSample bytes s.dims.samples) s.src le_rfl
    fun c i _ => ⟨planeByte bytes s.dims.samples c i, rfl, toNat_planeByte ..⟩
  exact ⟨src, loadBody_of_planes hparams hinput hsrc, hfill⟩

theorem truncFlag_eq_true_iff (bytes : List Byte) (n : Nat) : truncFlag bytes n = true ↔ bytes.length < 3 * n :=
  decide_eq_true_iff

/-- Settles O22. The loop over SRC runs to N and stores the byte of the stream, or 0 where the stream has none. -/
theorem loadFillsThePlanes : Obligations.LoadFillsThePlanes := by
  intro s bytes hidle hparams hinput
  obtain ⟨src, hsrc⟩ := loadPlanes_complete bytes s.dims.samples s.src
  obtain ⟨hread, hrest, -⟩ := loadPlanes_ok hsrc
  refine ⟨_, exec_in_idle rfl (loadBody_of_planes hparams hinput hsrc) hidle, fun c i hi => ?_, hrest,
    truncFlag_eq_true_iff .., rfl⟩
  rw [← planeByte_eq_getD]
  exact hread c i hi

/-! ### Bytes beyond the planes (R94) -/

/-- Position c * N + i lies below 3 * N. -/
theorem streamPosition_lt (c : Channel) {n i : Nat} (hi : i < n) : channelIndex c * n + i < 3 * n := by
  calc channelIndex c * n + i < (channelIndex c + 1) * n := by rw [Nat.succ_mul]; omega
    _ ≤ 3 * n := Nat.mul_le_mul_right n (channelIndex_lt c)

theorem planeByte_append {n i : Nat} (extra : List Byte) (hlen : 3 * n ≤ bytes.length) (c : Channel) (hi : i < n) :
    planeByte (bytes ++ extra) n c i = planeByte bytes n c i := by
  have hpos : channelIndex c * n + i < bytes.length := Nat.lt_of_lt_of_le (streamPosition_lt c hi) hlen
  rw [planeByte_eq_getD, planeByte_eq_getD, List.getElem?_append_left hpos]

theorem loadPlanes_append {n : Nat} (extra : List Byte) (src : Planes) (hlen : 3 * n ≤ bytes.length) :
    loadPlanes (bytes ++ extra) n src = loadPlanes bytes n src :=
  fillPlanes_congr src fun c _ hi => congrArg Except.ok (planeByte_append extra hlen c hi)

theorem truncFlag_of_long {n : Nat} (hlen : 3 * n ≤ bytes.length) : truncFlag bytes n = false :=
  decide_eq_false (Nat.not_lt.mpr hlen)

/-- Settles O23. The loop reads positions below 3 * N only, and both streams are long enough for all of them. -/
theorem bytesBeyondThePlanesAreNotRead : Obligations.BytesBeyondThePlanesAreNotRead := by
  intro s bytes extra hidle hparams hlen
  obtain ⟨src, hsrc⟩ := loadPlanes_complete bytes s.dims.samples s.src
  have hlen' : 3 * s.dims.samples ≤ (bytes ++ extra).length := by
    rw [List.length_append]
    omega
  have hlong : loadBody { s with input := some (bytes ++ extra) } =
      .ok (finishLoad src (truncFlag (bytes ++ extra) s.dims.samples) { s with input := some (bytes ++ extra) }) :=
    loadBody_of_planes (s := { s with input := some (bytes ++ extra) }) hparams rfl
      ((loadPlanes_append extra s.src hlen).trans hsrc)
  have hshort : loadBody { s with input := some bytes } =
      .ok (finishLoad src (truncFlag bytes s.dims.samples) { s with input := some bytes }) :=
    loadBody_of_planes (s := { s with input := some bytes }) hparams rfl hsrc
  rw [truncFlag_of_long hlen'] at hlong
  rw [truncFlag_of_long hlen] at hshort
  exact ⟨_, exec_in_idle rfl hshort hidle, rfl, exec_in_idle rfl hlong hidle⟩

/-! ### IOError (R95, R182) -/

theorem loadBody_of_absentStream (hparams : paramCheck s = 0) (hinput : s.input = none) :
    loadBody s = .ok (raise .ioError ioInfo s) := by
  simp [loadBody, hparams, hinput]

/-- Settles O17. LOAD's body raises the error, and it is the first body of RUN. -/
theorem absentStreamRaisesIOError : Obligations.AbsentStreamRaisesIOError := by
  intro s hidle hparams hinput
  have hload : loadBody s = .ok (raise .ioError 0 s) := loadBody_of_absentStream hparams hinput
  have hrun : runBody s = .ok (raise .ioError 0 s) := thenBody_of_raised _ hload
  exact ⟨exec_in_idle rfl hload hidle, exec_in_idle rfl hrun hidle⟩

end Sys2Proof.Machine
end

section
/-! PIVOT: the sample indices, the strided mean and its range (42_pivot_resolution.md R100-R104). -/

namespace Sys2Proof.Machine

/-! ### The sample indices (R102, R103) -/

theorem mem_sampleIndices {n i : Nat} : i ∈ sampleIndices n ↔ i < n ∧ i % 100 = 0 := by
  simp [sampleIndices]

theorem sampleCount_eq (n : Nat) : sampleCount n = (n + 99) / 100 := rfl

/-- One more index is a member, and adds one to the count, exactly where it is a multiple of 100. -/
theorem length_sampleIndices (n : Nat) : (sampleIndices n).length = sampleCount n := by
  induction n with
  | zero => rfl
  | succ n ih =>
    have hlast : sampleIndices (n + 1) = sampleIndices n ++ if n % 100 = 0 then [n] else [] := by
      simp [sampleIndices, List.range_succ, List.filter_append, List.filter_cons]
    rw [hlast, List.length_append, ih]
    simp only [sampleCount_eq]
    split
    · rw [List.length_singleton]
      omega
    · rw [List.length_nil]
      omega

theorem sampleCount_pos {n : Nat} (h : 1 ≤ n) : 0 < sampleCount n := by
  rw [sampleCount_eq]
  omega

/-- Settles O27. The members are a filtered range; their number grows with N as SampleCount does. -/
theorem sampleCountCountsTheIndices : Obligations.SampleCountCountsTheIndices := fun n =>
  ⟨fun _ => mem_sampleIndices, fun hn => mem_sampleIndices.mpr ⟨hn, rfl⟩, List.nodup_range.filter _,
    length_sampleIndices n, sampleCount_eq n⟩

/-! ### The mean (R101, R103, R104) -/

variable {n : Nat} {px px' : Channel → Nat → Nat}

/-- The mean over the sample indices, as the rules write it. -/
theorem meanOf_eq (n : Nat) (px : Channel → Nat → Nat) :
    meanOf n px = ((sampleIndices n).map fun i => px .r i + px .g i + px .b i).sum / (3 * sampleCount n) := rfl

theorem meanOf_congr (h : ∀ c, ∀ i < n, px c i = px' c i) : meanOf n px = meanOf n px' := by
  have hsame : ∀ i ∈ sampleIndices n, px .r i + px .g i + px .b i = px' .r i + px' .g i + px' .b i := fun i hi => by
    have hi : i < n := (mem_sampleIndices.mp hi).1
    rw [h .r i hi, h .g i hi, h .b i hi]
  rw [meanOf_eq, meanOf_eq, List.map_congr_left hsame]

/-- A mean of samples is a sample value. -/
theorem meanOf_le (h : ∀ c, ∀ i < n, px c i ≤ 255) : meanOf n px ≤ 255 := by
  have hsample : ∀ x ∈ (sampleIndices n).map fun i => px .r i + px .g i + px .b i, x ≤ 765 := fun x hx => by
    obtain ⟨i, hi, rfl⟩ := List.mem_map.mp hx
    have hi : i < n := (mem_sampleIndices.mp hi).1
    have hr := h .r i hi
    have hg := h .g i hi
    have hb := h .b i hi
    omega
  have hsum := List.sum_le_card_nsmul _ 765 hsample
  rw [List.length_map, length_sampleIndices, smul_eq_mul] at hsum
  rw [meanOf_eq]
  exact Nat.div_le_of_le_mul (hsum.trans_eq (by ring))

/-- The mean of a constant is the constant. -/
theorem meanOf_const {v : Nat} (hn : 1 ≤ n) (h : ∀ c, ∀ i < n, i % 100 = 0 → px c i = v) : meanOf n px = v := by
  have hconst : ∀ i ∈ sampleIndices n, px .r i + px .g i + px .b i = 3 * v := fun i hi => by
    obtain ⟨hi, hmod⟩ := mem_sampleIndices.mp hi
    rw [h .r i hi hmod, h .g i hi hmod, h .b i hi hmod]
    omega
  have hcount := sampleCount_pos hn
  rw [meanOf_eq, List.map_congr_left hconst, List.map_const', List.sum_replicate, length_sampleIndices, smul_eq_mul]
  exact Nat.div_eq_of_eq_mul_left (by omega) (by ring)

/-- The resolved pivot is a sample value or -1 (R104). -/
theorem pivotOf_mem {m : Int} (hpx : ∀ c, ∀ i < n, px c i ≤ 255) (hlo : -2 ≤ m) (hhi : m ≤ 255) :
    (m = -1 → pivotOf n m px = -1) ∧ (m ≠ -1 → 0 ≤ pivotOf n m px ∧ pivotOf n m px ≤ 255) := by
  have hmean := meanOf_le hpx
  unfold pivotOf
  split <;> omega

/-! ### The command (R100) -/

variable {s t : State}

/-- MODE is passed through unless it asks for the mean. -/
theorem resolvePivot_of_mode {m : Int} (hm : modeInt s = some m) (hmanual : m ≠ -2) : resolvePivot s = .ok m := by
  simp [resolvePivot, hm, readReg, hmanual]

/-- The machine sums plane by plane, the rules index by index. -/
theorem stridedMean_eq_meanOf {src : Planes} (h : Planes.filled src n) :
    stridedMean n src = .ok (meanOf n fun c => sampleAt (planeOf src c)) := by
  rw [stridedMean_eq h, meanOf_eq]
  simp only [List.sum_map_add]
  rfl

/-- PIVOT is resolved as R101 says from the samples of SRC. -/
theorem resolvePivot_eq_pivotOf {m : Int} (hm : modeInt s = some m) (hsrc : Planes.Holds s.src s.dims.samples px) :
    resolvePivot s = .ok (pivotOf s.dims.samples m px) := by
  unfold pivotOf
  split
  · next hauto =>
    have hmean : meanOf s.dims.samples (fun c => sampleAt (planeOf s.src c)) = meanOf s.dims.samples px :=
      meanOf_congr fun c i hi => hsrc.sampleAt_eq c hi
    simp [resolvePivot, hm, readReg, hauto, stridedMean_eq_meanOf hsrc.filled, hmean]
  · next hmanual => exact resolvePivot_of_mode hm hmanual

theorem pivotBody_of_resolved {p : Int} (h : resolvePivot s = .ok p) : pivotBody s = .ok (finishPivot p s) := by
  simp [pivotBody, h]

theorem exec_pivot_of_resolved {p : Int} (hloaded : s.phase = .loaded) (h : resolvePivot s = .ok p) :
    exec .pivot s = .next (finishPivot p s) :=
  exec_of_body (by simp [hloaded]) (by simp [legalNow, hloaded]) (pivotBody_of_resolved h)

theorem modeInt_of_mode {a : Arg} (h : s.mode = some a) : modeInt s = some a.toInt := by
  simp [modeInt, h]

/-- Settles O25. The resolution of PIVOT is MODE itself. -/
theorem pivotPassesModeThrough : Obligations.PivotPassesModeThrough := fun _ _ hloaded hmode hmanual =>
  exec_pivot_of_resolved hloaded (resolvePivot_of_mode (modeInt_of_mode hmode) hmanual)

/-- Settles O26. With MODE = -2 the resolution of PIVOT is the mean of the samples that SRC holds. -/
theorem pivotIsTheStridedMean : Obligations.PivotIsTheStridedMean := by
  intro s a hloaded hmode hauto hsrc
  have hresolved := resolvePivot_eq_pivotOf (modeInt_of_mode hmode) (Planes.holds_of_filled hsrc)
  rw [pivotOf, if_pos hauto] at hresolved
  exact exec_pivot_of_resolved hloaded hresolved

/-- Past LOAD the invariant has MODE legal. -/
theorem Inv.exists_modeInt (hinv : Inv s) (h : reached 1 s) : ∃ m, modeInt s = some m ∧ -2 ≤ m ∧ m ≤ 255 := by
  obtain ⟨-, -, hmode⟩ := paramCheck_eq_zero.mp (hinv.done.1 h).1
  obtain ⟨a, ha, hlo, hhi⟩ := modeLegal_iff.mp hmode
  exact ⟨a.toInt, modeInt_of_mode ha, hlo, hhi⟩

/-- Past LOAD the invariant has SRC written. -/
theorem Inv.src_holds (hinv : Inv s) (h : reached 1 s) :
    Planes.Holds s.src s.dims.samples fun c => sampleAt (planeOf s.src c) :=
  Planes.holds_of_filled (hinv.done.1 h).2

/-- Settles O28. The resolved pivot is MODE, or a mean of samples, and a mean of equal samples is their value. -/
theorem pivotRange : Obligations.PivotRange := by
  refine ⟨fun s t hinv hloaded hexec => ?_, fun n v px hn h => meanOf_const hn h⟩
  have hreached : reached 1 s := reached_of_phase hloaded (by decide)
  obtain ⟨m, hm, hlo, hhi⟩ := hinv.exists_modeInt hreached
  have hsrc := hinv.src_holds hreached
  obtain ⟨huniform, hlog⟩ := pivotOf_mem hsrc.le_255 hlo hhi
  rw [exec_pivot_of_resolved hloaded (resolvePivot_eq_pivotOf hm hsrc)] at hexec
  cases hexec
  refine ⟨_, rfl, ?_, fun hne => hlog fun hmode => hne (huniform hmode)⟩
  rw [hm, Option.some.injEq]
  refine ⟨fun hp => ?_, huniform⟩
  by_contra hmode
  have hrange := hlog hmode
  omega

end Sys2Proof.Machine
end

section
/-! RESAMPLE: the box filter, the resampled planes and their independence (43_box_filter_3x3_rgb.md R110-R116). -/

namespace Sys2Proof.Machine

/-! ### The filter (R114) -/

variable {d : Dims} {rd : Nat → Except Fault Byte} {px : Nat → Nat}

/-- A running sum over reads that all succeed is the sum over the samples read. -/
theorem sumReads_of_samples {g : Nat → Nat} {is : List Nat} (h : ∀ i ∈ is, ∃ b, rd i = .ok b ∧ b.toNat = px i) :
    sumReads g rd is = .ok (is.map fun i => g (px i)).sum := by
  induction is with
  | nil => rfl
  | cons i is ih =>
    obtain ⟨b, hb, hpx⟩ := h i List.mem_cons_self
    simp [sumReads, hb, hpx, ih fun k hk => h k (List.mem_cons_of_mem i hk)]

/-- The sum of the nine per-tap floors around a pixel. -/
def tapSum (d : Dims) (px : Nat → Nat) (row col : Nat) : Nat := ((tapIndices d row col).map fun i => px i / 9).sum

/-- Nine taps of at most 255 / 9 = 28 each. -/
theorem tapSum_le {row col : Nat} (h : ∀ i ∈ tapIndices d row col, px i ≤ 255) : tapSum d px row col ≤ 252 := by
  have htaps : (tapIndices d row col).length = 9 := rfl
  have hsum : tapSum d px row col ≤ ((tapIndices d row col).map fun i => px i / 9).length • 28 :=
    List.sum_le_card_nsmul _ 28 fun x hx => by
      obtain ⟨i, hi, rfl⟩ := List.mem_map.mp hx
      have := h i hi
      omega
  rwa [List.length_map, htaps, smul_eq_mul] at hsum

/-- The filter completes with the sum of the floors, which fits a byte. -/
theorem boxFilter9_of_samples {row col : Nat} (h : ∀ i ∈ tapIndices d row col, ∃ b, rd i = .ok b ∧ b.toNat = px i) :
    ∃ b, boxFilter9 d rd row col = .ok b ∧ b.toNat = tapSum d px row col ∧ tapSum d px row col ≤ 252 := by
  have hle : tapSum d px row col ≤ 252 := tapSum_le fun i hi => by
    obtain ⟨b, -, hpx⟩ := h i hi
    exact hpx ▸ Nat.le_of_lt_succ b.isLt
  have hsum : sumReads (· / Config.tapDiv) rd (tapIndices d row col) = .ok (tapSum d px row col) :=
    sumReads_of_samples h
  refine ⟨BitVec.ofNat 8 (tapSum d px row col), by simp only [boxFilter9, hsum], ?_, hle⟩
  exact (BitVec.toNat_ofNat ..).trans (Nat.mod_eq_of_lt (by omega))

/-- Settles O30. The nine taps are the three rows and three columns around the pixel, and their sum fits a byte. -/
theorem boxFilterSumsNineFloors : Obligations.BoxFilterSumsNineFloors := by
  intro d px row col _
  obtain ⟨b, hb, hsum, hle⟩ := boxFilter9_of_samples (d := d) (rd := fun i => .ok (px i)) (px := fun i => (px i).toNat)
    (row := row) (col := col) fun i _ => ⟨px i, rfl, rfl⟩
  refine ⟨b, hb, hsum ▸ hle, hsum.trans ?_⟩
  simp [tapSum, tapIndices, srcIndex, List.range_succ, add_assoc]

/-! ### One resampled sample (R112-R115) -/

theorem tapSum_eq (d : Dims) (px : Nat → Nat) (row col : Nat) : tapSum d px row col =
    px ((row - 1) * d.w + (col - 1)) / 9 + px ((row - 1) * d.w + col) / 9 + px ((row - 1) * d.w + (col + 1)) / 9 +
    px (row * d.w + (col - 1)) / 9 + px (row * d.w + col) / 9 + px (row * d.w + (col + 1)) / 9 +
    px ((row + 1) * d.w + (col - 1)) / 9 + px ((row + 1) * d.w + col) / 9 +
    px ((row + 1) * d.w + (col + 1)) / 9 := by
  simp [tapSum, tapIndices, srcIndex, add_assoc]

/-- The rule of a resampled sample in the machine's terms. -/
theorem roundOf_eq (d : Dims) (scale : Nat) (px : Nat → Nat) (j : Nat) :
    roundOf d scale px j =
      if scale < Config.scaleOne ∧ isInterior d (srcCoord (outDims d scale).1 scale j).1
          (srcCoord (outDims d scale).1 scale j).2 then
        tapSum d px (srcCoord (outDims d scale).1 scale j).1 (srcCoord (outDims d scale).1 scale j).2
      else px (srcIndex d (srcCoord (outDims d scale).1 scale j).1 (srcCoord (outDims d scale).1 scale j).2) := by
  simp only [tapSum_eq, isInterior, decide_eq_true_eq]
  rfl

/-- A resampled sample reads inside the source plane only, and completes with the sample of the rule. -/
theorem roundSample_of_samples {scale j : Nat} (hpos : 1 ≤ scale)
    (hj : j < (outDims d scale).1 * (outDims d scale).2)
    (h : ∀ i < d.samples, ∃ b, rd i = .ok b ∧ b.toNat = px i) :
    ∃ b, roundSample d scale (outDims d scale).1 rd j = .ok b ∧ b.toNat = roundOf d scale px j := by
  obtain ⟨hrow, hcol⟩ := srcCoord_lt hpos hj
  rw [roundOf_eq, roundSample]
  split
  · next hfilter =>
    obtain ⟨b, hb, hsum, -⟩ := boxFilter9_of_samples fun i hi => h i (tapIndex_lt hfilter.2 hi)
    exact ⟨b, hb, hsum⟩
  · exact h _ (srcIndex_lt hrow hcol)

/-! ### The planes (R110, R111) -/

/-- The output has no more samples than the source. -/
theorem outDims_le {scale : Nat} (hle : scale ≤ 65536) (d : Dims) :
    (outDims d scale).1 ≤ d.w ∧ (outDims d scale).2 ≤ d.h := by
  have hscaled : ∀ n : Nat, n * scale / 65536 ≤ n := fun n =>
    Nat.div_le_of_le_mul (Nat.mul_comm n 65536 ▸ Nat.mul_le_mul_left n hle)
  exact ⟨hscaled d.w, hscaled d.h⟩

theorem outSize_le {scale : Nat} (hle : scale ≤ 65536) (d : Dims) :
    (outDims d scale).1 * (outDims d scale).2 ≤ d.samples :=
  Nat.mul_le_mul (outDims_le hle d).1 (outDims_le hle d).2

variable {s t : State}

/-- RESAMPLE completes with the resampled samples in RND. -/
theorem resampleBody_filledWith {a : Arg} {px : Channel → Nat → Nat} (ha : s.scale = some a) (hpos : 1 ≤ a.toNat)
    (hle : a.toNat ≤ 65536) (hsrc : Planes.Holds s.src s.dims.samples px) :
    ∃ rnd, resampleBody s =
        .ok (finishResample (outDims s.dims a.toNat).1 (outDims s.dims a.toNat).2 rnd s) ∧
      Planes.FilledWith s.rnd rnd s.dims.samples ((outDims s.dims a.toNat).1 * (outDims s.dims a.toNat).2)
        fun c => roundOf s.dims a.toNat (px c) := by
  obtain ⟨rnd, hrnd, hfill⟩ := fillPlanes_filledWith s.rnd (outSize_le hle s.dims) fun c j hj =>
    roundSample_of_samples hpos hj fun i hi => hsrc.fetchByte_eq le_rfl c hi
  exact ⟨rnd, by simp only [resampleBody, readReg_ok.mpr ha, hrnd], hfill⟩

/-- Settles O29. Every index of the output maps inside SRC, which is written. -/
theorem resampleFillsRnd : Obligations.ResampleFillsRnd := by
  intro s a hpivoted ha hpos hle hsrc
  obtain ⟨rnd, hbody, hfill⟩ := resampleBody_filledWith ha hpos hle (Planes.holds_of_filled hsrc)
  exact ⟨_, exec_of_body (by simp [hpivoted]) (by simp [legalNow, hpivoted]) hbody, rfl, rfl, hfill.holds, hfill.rest,
    rfl⟩

/-! ### The channels (R116) -/

theorem resampleBody_of_exec (hpivoted : s.phase = .pivoted) (hexec : exec .resample s = .next t) :
    resampleBody s = .ok t :=
  bodyOf_of_exec (by simp [hpivoted]) (by simp [legalNow, hpivoted]) hexec

/-- Settles O34. The loop over a plane of RND reads that plane of SRC alone, so the same loop runs in both states. -/
theorem channelsAreIndependent : Obligations.ChannelsAreIndependent := by
  intro s s' t t' c hdims hscale hsrc hrnd hp hp' hexec hexec'
  obtain ⟨a, rnd, ha, hfill, rfl⟩ := resampleBody_ok (resampleBody_of_exec hp hexec)
  obtain ⟨a', rnd', ha', hfill', rfl⟩ := resampleBody_ok (resampleBody_of_exec hp' hexec')
  obtain rfl : a = a' := Option.some.inj (ha.symm.trans (hscale.trans ha'))
  have hplane := fillPlanes_eq.mp hfill c
  have hplane' := fillPlanes_eq.mp hfill' c
  rw [hdims, hsrc, hrnd] at hplane
  exact Except.ok.inj (hplane.symm.trans hplane')

end Sys2Proof.Machine
end

section
/-! QUNI and QLOG: the loop over RND that the two share, and their quantisers on a byte (44_quantizer_uniform_binning.md
R130-R134; 45_quantizer_logarithmic_pivot.md R140). -/

namespace Sys2Proof.Machine

/-! ### The quantisers on a byte -/

/-- A level of the uniform quantiser fits a byte (R133, R134). -/
theorem toNat_quantUniformByte {q : Nat} (hq : q ≤ 8) (v : Byte) :
    (quantUniformByte (2 ^ q) v).toNat = quantUniform v.toNat (2 ^ q) := by
  have hwidth : bitInt (2 ^ q) * 2 ^ q = 256 := bitInt_two_pow_mul hq
  have hbucket : v.toNat / bitInt (2 ^ q) < 2 ^ q := bucket_lt hwidth (Nat.le_of_lt_succ v.isLt)
  have hle : quantUniform v.toNat (2 ^ q) ≤ 255 := (uniformLevel_le hwidth hbucket).trans (greatestLevel_le hwidth)
  exact (BitVec.toNat_ofNat ..).trans (Nat.mod_eq_of_lt (by omega))

theorem clampInt_mem (x : Int) {lo hi : Int} (h : lo ≤ hi) : lo ≤ clampInt x lo hi ∧ clampInt x lo hi ≤ hi := by
  unfold clampInt
  split
  · omega
  · split
    · omega
    · omega

/-- The final clamp is to 0..255 (R152). -/
theorem reconExact_le (idx p n : Nat) : reconExact idx p n ≤ 255 :=
  Int.toNat_le.mpr (clampInt_mem _ (by decide)).2

theorem quantLog_le {v : Nat} (hv : v ≤ 255) (p n : Nat) : quantLog v p n ≤ 255 := by
  unfold quantLog
  split
  · omega
  · exact reconExact_le ..

theorem toNat_quantLogByte (p n : Nat) (v : Byte) : (quantLogByte p n v).toNat = quantLog v.toNat p n := by
  have hle : quantLog v.toNat p n ≤ 255 := quantLog_le (Nat.le_of_lt_succ v.isLt) p n
  exact (BitVec.toNat_ofNat ..).trans (Nat.mod_eq_of_lt (by omega))

/-! ### The loop (R130, R140) -/

variable {s : State} {px : Channel → Nat → Nat}

theorem quantizePlanes_filledWith {q : Byte → Byte} {f : Nat → Nat} {cap size : Nat} {rnd : Planes} (qnt : Planes)
    (hq : ∀ v, (q v).toNat = f v.toNat) (hle : size ≤ cap) (hrnd : Planes.Holds rnd size px) :
    ∃ p, quantizePlanes q cap size rnd qnt = .ok p ∧ Planes.FilledWith qnt p cap size fun c j => f (px c j) :=
  fillPlanes_filledWith qnt hle fun c j hj => by
    obtain ⟨b, hb, hpx⟩ := hrnd.fetchByte_eq hle c hj
    exact ⟨q b, by rw [hb], hpx ▸ hq b⟩

/-- The loop completes with every sample of RND taken through the quantiser. -/
theorem quantizeBody_filledWith {q : Byte → Byte} {f : Nat → Nat} {size : Nat} (hq : ∀ v, (q v).toNat = f v.toNat)
    (hsize : newSize s = .ok size) (hle : size ≤ s.dims.samples) (hrnd : Planes.Holds s.rnd size px) :
    ∃ qnt, quantizeBody q s = .ok (finishQuantize qnt s) ∧
      Planes.FilledWith s.qnt qnt s.dims.samples size fun c j => f (px c j) := by
  obtain ⟨qnt, hqnt, hfill⟩ := quantizePlanes_filledWith s.qnt hq hle hrnd
  exact ⟨qnt, by simp only [quantizeBody, hsize, hqnt], hfill⟩

theorem quniBody_filledWith {q : Arg} {size : Nat} (hquant : s.quant = some q) (hlo : 1 ≤ q.toNat) (hhi : q.toNat ≤ 8)
    (hsize : newSize s = .ok size) (hle : size ≤ s.dims.samples) (hrnd : Planes.Holds s.rnd size px) :
    ∃ qnt, quniBody s = .ok (finishQuantize qnt s) ∧
      Planes.FilledWith s.qnt qnt s.dims.samples size fun c j => quantUniform (px c j) (2 ^ q.toNat) := by
  have hn : numInt s = .ok (2 ^ q.toNat) := numInt_ok.mpr ⟨q, hquant, hlo, hhi, rfl⟩
  obtain ⟨qnt, hbody, hfill⟩ := quantizeBody_filledWith (f := fun v => quantUniform v (2 ^ q.toNat))
    (toNat_quantUniformByte hhi) hsize hle hrnd
  exact ⟨qnt, by simp only [quniBody, hn, hbody], hfill⟩

theorem qlogBody_filledWith {q : Arg} {p size : Nat} (hquant : s.quant = some q) (hlo : 1 ≤ q.toNat)
    (hhi : q.toNat ≤ 8) (hpivot : s.pivot = some (p : Int)) (hp : p ≤ 255) (hsize : newSize s = .ok size)
    (hle : size ≤ s.dims.samples) (hrnd : Planes.Holds s.rnd size px) :
    ∃ qnt, qlogBody s = .ok (finishQuantize qnt s) ∧
      Planes.FilledWith s.qnt qnt s.dims.samples size fun c j => quantLog (px c j) p (2 ^ q.toNat) := by
  have hn : numInt s = .ok (2 ^ q.toNat) := numInt_ok.mpr ⟨q, hquant, hlo, hhi, rfl⟩
  have hsample : pivotSample s = .ok p := pivotSample_ok.mpr ⟨hpivot, hp⟩
  obtain ⟨qnt, hbody, hfill⟩ := quantizeBody_filledWith (f := fun v => quantLog v p (2 ^ q.toNat))
    (toNat_quantLogByte p (2 ^ q.toNat)) hsize hle hrnd
  exact ⟨qnt, by simp only [qlogBody, hn, hsample, hbody], hfill⟩

/-- Settles O35. The loop takes every sample of RND to its level. -/
theorem quniQuantizesEverySample : Obligations.QuniQuantizesEverySample := by
  intro s q ow oh hresampled huniform hquant hlo hhi hw hh hle hrnd
  obtain ⟨qnt, hbody, hfill⟩ := quniBody_filledWith hquant hlo hhi (newSize_ok.mpr ⟨ow, oh, hw, hh, rfl⟩) hle
    (Planes.holds_of_filled hrnd)
  exact ⟨_, exec_of_body (by simp [hresampled]) (by simp [legalNow, hresampled, huniform]) hbody, hfill.holds,
    hfill.rest, rfl⟩

/-- Settles O38. The loop takes every sample of RND through QuantLog, with the pivot that the register holds. -/
theorem qlogQuantizesEverySample : Obligations.QlogQuantizesEverySample := by
  intro s q p ow oh hresampled hlog hquant hlo hhi hpivot hp hw hh hle hrnd
  obtain ⟨qnt, hbody, hfill⟩ := qlogBody_filledWith hquant hlo hhi hpivot hp (newSize_ok.mpr ⟨ow, oh, hw, hh, rfl⟩) hle
    (Planes.holds_of_filled hrnd)
  exact ⟨_, exec_of_body (by simp [hresampled]) (by simp [legalNow, hresampled, hlog]) hbody, hfill.holds, hfill.rest,
    rfl⟩

/-- The quantiser that MODE selects completes with every sample of RND quantised (R170). -/
theorem quantizerBody_filledWith {q : Arg} {m p : Int} {size : Nat} (hmode : modeInt s = some m)
    (hquant : s.quant = some q) (hlo : 1 ≤ q.toNat) (hhi : q.toNat ≤ 8) (hpivot : s.pivot = some p)
    (hp : m ≠ -1 → 0 ≤ p ∧ p ≤ 255) (hsize : newSize s = .ok size) (hle : size ≤ s.dims.samples)
    (hrnd : Planes.Holds s.rnd size px) :
    ∃ qnt, quantizerBody s = .ok (finishQuantize qnt s) ∧
      Planes.FilledWith s.qnt qnt s.dims.samples size fun c j => quantOf m p (2 ^ q.toNat) (px c j) := by
  simp only [quantizerBody, quantOf, hmode, Option.some.injEq]
  split
  · exact quniBody_filledWith hquant hlo hhi hsize hle hrnd
  · next hlog =>
    obtain ⟨hnonneg, hp⟩ := hp hlog
    have hpivot : s.pivot = some (p.toNat : Int) := by rw [hpivot, Int.toNat_of_nonneg hnonneg]
    exact qlogBody_filledWith hquant hlo hhi hpivot (Int.toNat_le.mpr hp) hsize hle hrnd

end Sys2Proof.Machine
end

section
/-! PACK: the interleaved output (46_rgb_interleaver.md R160, R161). -/

namespace Sys2Proof.Machine

variable {s : State}

theorem packBody_of_packBytes {size : Nat} {m : Memory} (hsize : newSize s = .ok size)
    (hm : packBytes s.dims.samples size s.qnt s.packed = .ok m) : packBody s = .ok (finishPack m s) := by
  simp only [packBody, hsize, hm]

/-- Settles O45. Location 3j + c is written from location j of plane c. -/
theorem packInterleaves : Obligations.PackInterleaves := by
  intro s ow oh hquantized hw hh hle hqnt
  obtain ⟨m, hm⟩ := packBytes_complete s.packed hle hqnt
  obtain ⟨hread, hrest, hfilled, -⟩ := packBytes_ok hm
  have hbody : packBody s = .ok (finishPack m s) := packBody_of_packBytes (newSize_ok.mpr ⟨ow, oh, hw, hh, rfl⟩) hm
  refine ⟨_, exec_of_body (by simp [hquantized]) (by simp [legalNow, hquantized]) hbody, fun c j hj => ?_, hfilled,
    hrest, rfl⟩
  obtain ⟨v, hv, hv'⟩ := hread c j hj
  exact hv'.trans hv.symm

/-- Location 3j + c of the memory holds sample j of channel c, for every j below `size` (R160). -/
def Memory.Interleaves (m : Memory) (size : Nat) (px : Channel → Nat → Nat) : Prop :=
  ∀ c, ∀ j < size, ∃ b, Memory.read m (3 * j + channelIndex c) = some b ∧ b.toNat = px c j

/-- PACK completes with the samples of QNT interleaved in PACKED. -/
theorem packBody_of_samples {size : Nat} {px : Channel → Nat → Nat} (hsize : newSize s = .ok size)
    (hle : size ≤ s.dims.samples) (hqnt : Planes.Holds s.qnt size px) :
    ∃ m, packBody s = .ok (finishPack m s) ∧ packBytes s.dims.samples size s.qnt s.packed = .ok m ∧
      Memory.Interleaves m size px := by
  obtain ⟨m, hm⟩ := packBytes_complete s.packed hle hqnt.filled
  refine ⟨m, packBody_of_packBytes hsize hm, hm, fun c j hj => ?_⟩
  obtain ⟨v, hv, hread⟩ := (packBytes_ok hm).1 c j hj
  obtain ⟨b, hb, hpx⟩ := hqnt c j hj
  obtain rfl : v = b := Option.some.inj (hv.symm.trans hb)
  exact ⟨v, hread, hpx⟩

end Sys2Proof.Machine
end

section
/-! RUN as one equation from the stream to the output, and the start-up sequence that ends in it (47_run.md R170;
70_reset_and_hazards.md R212). -/

namespace Sys2Proof.Machine

variable {s : State}

/-- Legal parameters are set, and each is in its range (R91). -/
theorem legal_of_paramCheck {a q m : Arg} (hscale : s.scale = some a) (hquant : s.quant = some q)
    (hmode : s.mode = some m) (h : paramCheck s = 0) :
    (1 ≤ a.toNat ∧ a.toNat ≤ 65536) ∧ (1 ≤ q.toNat ∧ q.toNat ≤ 8) ∧ -2 ≤ m.toInt ∧ m.toInt ≤ 255 := by
  obtain ⟨ha, hq, hm⟩ := paramCheck_eq_zero.mp h
  rw [hscale, scaleLegal_iff] at ha
  rw [hquant, quantLegal_iff] at hq
  rw [hmode, modeLegal_iff] at hm
  simpa only [Option.some.injEq, exists_eq_left'] using And.intro ha (And.intro hq hm)

/-! ### The rest of RUN from each stage on: each stage finds in the memory before it the samples that it needs -/

section Stages

variable {a q : Arg} {m p : Int} {size : Nat} {px : Channel → Nat → Nat}

theorem fromQuantize_completes (hmode : modeInt s = some m) (hquant : s.quant = some q)
    (hq : 1 ≤ q.toNat ∧ q.toNat ≤ 8) (hpivot : s.pivot = some p) (hp : m ≠ -1 → 0 ≤ p ∧ p ≤ 255)
    (hsize : newSize s = .ok size) (hle : size ≤ s.dims.samples) (hrnd : Planes.Holds s.rnd size px) :
    ∃ qnt packed, thenBody quantizerBody packBody s = .ok (finishPack packed (finishQuantize qnt s)) ∧
      Memory.Interleaves packed size fun c j => quantOf m p (2 ^ q.toNat) (px c j) := by
  obtain ⟨qnt, hbody, hqnt⟩ := quantizerBody_filledWith hmode hquant hq.1 hq.2 hpivot hp hsize hle hrnd
  obtain ⟨packed, hrest, -, hpacked⟩ := packBody_of_samples (s := finishQuantize qnt s) hsize hle hqnt.holds
  exact ⟨qnt, packed, (thenBody_of_ok hbody nofun).trans hrest, hpacked⟩

theorem fromResample_completes (hmode : modeInt s = some m) (hscale : s.scale = some a)
    (ha : 1 ≤ a.toNat ∧ a.toNat ≤ 65536) (hquant : s.quant = some q) (hq : 1 ≤ q.toNat ∧ q.toNat ≤ 8)
    (hpivot : s.pivot = some p) (hp : m ≠ -1 → 0 ≤ p ∧ p ≤ 255) (hsrc : Planes.Holds s.src s.dims.samples px) :
    ∃ rnd qnt packed, thenBody resampleBody (thenBody quantizerBody packBody) s =
        .ok (finishPack packed (finishQuantize qnt
          (finishResample (outDims s.dims a.toNat).1 (outDims s.dims a.toNat).2 rnd s))) ∧
      Memory.Interleaves packed ((outDims s.dims a.toNat).1 * (outDims s.dims a.toNat).2)
        fun c j => quantOf m p (2 ^ q.toNat) (roundOf s.dims a.toNat (px c) j) := by
  obtain ⟨rnd, hbody, hrnd⟩ := resampleBody_filledWith hscale ha.1 ha.2 hsrc
  obtain ⟨qnt, packed, hrest, hpacked⟩ := fromQuantize_completes
    (s := finishResample (outDims s.dims a.toNat).1 (outDims s.dims a.toNat).2 rnd s)
    hmode hquant hq hpivot hp rfl (outSize_le ha.2 s.dims) hrnd.holds
  exact ⟨rnd, qnt, packed, (thenBody_of_ok hbody nofun).trans hrest, hpacked⟩

theorem fromPivot_completes (hmode : modeInt s = some m) (hm : -2 ≤ m ∧ m ≤ 255) (hscale : s.scale = some a)
    (ha : 1 ≤ a.toNat ∧ a.toNat ≤ 65536) (hquant : s.quant = some q) (hq : 1 ≤ q.toNat ∧ q.toNat ≤ 8)
    (hsrc : Planes.Holds s.src s.dims.samples px) :
    ∃ rnd qnt packed, thenBody pivotBody (thenBody resampleBody (thenBody quantizerBody packBody)) s =
        .ok (finishPack packed (finishQuantize qnt
          (finishResample (outDims s.dims a.toNat).1 (outDims s.dims a.toNat).2 rnd
            (finishPivot (pivotOf s.dims.samples m px) s)))) ∧
      Memory.Interleaves packed ((outDims s.dims a.toNat).1 * (outDims s.dims a.toNat).2)
        fun c j => quantOf m (pivotOf s.dims.samples m px) (2 ^ q.toNat) (roundOf s.dims a.toNat (px c) j) := by
  have hbody : pivotBody s = .ok (finishPivot (pivotOf s.dims.samples m px) s) :=
    pivotBody_of_resolved (resolvePivot_eq_pivotOf hmode hsrc)
  obtain ⟨rnd, qnt, packed, hrest, hpacked⟩ := fromResample_completes
    (s := finishPivot (pivotOf s.dims.samples m px) s) hmode hscale ha hquant hq rfl
    (pivotOf_mem hsrc.le_255 hm.1 hm.2).2 hsrc
  exact ⟨rnd, qnt, packed, (thenBody_of_ok hbody nofun).trans hrest, hpacked⟩

end Stages

/-- Settles O46. The five stages complete one after another, from the stream to PACKED. -/
theorem runComputesTheWholePipeline : Obligations.RunComputesTheWholePipeline := by
  intro s bytes a q m hidle hscale hquant hmode hparams hinput
  obtain ⟨ha, hq, hm⟩ := legal_of_paramCheck hscale hquant hmode hparams
  obtain ⟨src, hload, hsrc⟩ := loadBody_filledWith hparams hinput
  obtain ⟨rnd, qnt, packed, hrest, hpacked⟩ := fromPivot_completes
    (s := finishLoad src (truncFlag bytes s.dims.samples) s) (modeInt_of_mode hmode) hm hscale ha hquant hq hsrc.holds
  have hbody := (thenBody_of_ok hload nofun).trans hrest
  exact ⟨_, _, exec_in_idle rfl hbody hidle, rfl, rfl, rfl, rfl, truncFlag_eq_true_iff .., hpacked, rfl⟩

/-! ### The start-up sequence (R212) -/

/-- A host that writes the word of a well-formed command next has the command executed. -/
theorem step_of_command {i : Instr} {rest : List HostAction} (hwf : i.wellFormed = true)
    (h : s.host = .command (encode i) :: rest) : step s = exec i (withHost rest s) :=
  (step_of_action h).trans (runWord_of_decode (decodeOfEncode i hwf) _)

theorem core_run_succ {t : State} (h : step s = .next t) (k : Nat) : core.run (k + 1) s = core.run k t := by
  have hcore : core.step s = .next t := h
  simp only [Host.Core.run, hcore]

/-- A command of IDLE alone, written by the host next, follows its own rule. -/
theorem step_of_set {i : Instr} {t : State} {rest : List HostAction} (hwf : i.wellFormed = true)
    (h : s.host = .command (encode i) :: rest) (hl : legalNow i (withHost rest s) = decide (s.phase = .idle))
    (hb : bodyOf i (withHost rest s) = .ok t) (hidle : s.phase = .idle) : step s = .next t :=
  (step_of_command hwf h).trans (exec_in_idle hl hb hidle)

/-- The state after reset with the dimensions, the stream and the three parameters set. -/
def configuredIdle (d : Dims) (bytes : List Byte) (a q m : Arg) : State :=
  { State.reset with dims := d, input := some bytes, scale := some a, quant := some q, mode := some m }

/-- Settles O56. Each SET stores its legal operand in IDLE, and RUN then finds legal parameters and the stream. -/
theorem startupSequenceReachesDone : Obligations.StartupSequenceReachesDone := by
  intro d bytes u q m hu hu' hq hq' hm hm'
  have hscaleWf : (Instr.setscale u).wellFormed = true := decide_eq_true (by omega)
  have hquantWf : (Instr.setquant q).wellFormed = true := decide_eq_true (by omega)
  have hmodeWf : (Instr.setmode m).wellFormed = true := decide_eq_true (by omega)
  have hparams : paramCheck (configuredIdle d bytes (unsignedArg u) (unsignedArg q) (signedArg m)) = 0 := by
    refine paramCheck_eq_zero.mpr ⟨scaleLegal_iff.mpr ⟨_, rfl, ?_⟩, quantLegal_iff.mpr ⟨_, rfl, ?_⟩,
      modeLegal_iff.mpr ⟨_, rfl, ?_⟩⟩
    · rw [toNat_unsignedArg (by omega)]
      exact ⟨hu, hu'⟩
    · rw [toNat_unsignedArg (by omega)]
      exact ⟨hq, hq'⟩
    · rw [toInt_signedArg (by omega) (by omega)]
      exact ⟨hm, hm'⟩
  obtain ⟨t, p, hrun, -, -, -, -, -, -, ht⟩ := runComputesTheWholePipeline
    (configuredIdle d bytes (unsignedArg u) (unsignedArg q) (signedArg m)) bytes (unsignedArg u) (unsignedArg q)
    (signedArg m) rfl rfl rfl rfl hparams rfl
  have hlast : core.run 1 (withHost [.command (encode .run)]
      (configuredIdle d bytes (unsignedArg u) (unsignedArg q) (signedArg m))) = .next t :=
    core_run_succ ((step_of_command rfl rfl).trans hrun) 0
  refine ⟨t, ?_, by rw [ht], by rw [ht]; rfl⟩
  rw [core_run_succ (step_of_set hscaleWf rfl rfl rfl rfl), core_run_succ (step_of_set hquantWf rfl rfl rfl rfl),
    core_run_succ (step_of_set hmodeWf rfl rfl rfl rfl)]
  exact hlast

end Sys2Proof.Machine
end

section
/-! What no command depends on: the stream, but for LOAD and RUN, and WARN.TRUNC (10_state.md R29; 60_exceptions.md
R185). -/

namespace Sys2Proof.Machine

variable {i : Instr} {s t : State} {x : Option (List Byte)} {b : Bool}

/-- `s` with another stream and another TRUNC. -/
def withTags (x : Option (List Byte)) (b : Bool) (s : State) : State := { s with input := x, trunc := b }

/-! ### The stages after LOAD read neither -/

theorem pivotBody_withTags : pivotBody (withTags x b s) = (pivotBody s).map (withTags x b) := by
  have hread : resolvePivot (withTags x b s) = resolvePivot s := rfl
  simp only [pivotBody, hread]
  cases resolvePivot s <;> rfl

theorem resampleBody_withTags : resampleBody (withTags x b s) = (resampleBody s).map (withTags x b) := by
  unfold resampleBody withTags
  dsimp only
  split
  · rfl
  · split <;> rfl

theorem quantizeBody_withTags (q : Byte → Byte) :
    quantizeBody q (withTags x b s) = (quantizeBody q s).map (withTags x b) := by
  have hread : newSize (withTags x b s) = newSize s := rfl
  unfold quantizeBody
  rw [hread]
  split
  · rfl
  · unfold withTags
    dsimp only
    split <;> rfl

theorem quniBody_withTags : quniBody (withTags x b s) = (quniBody s).map (withTags x b) := by
  have hread : numInt (withTags x b s) = numInt s := rfl
  simp only [quniBody, hread]
  cases numInt s with
  | error e => rfl
  | ok n => exact quantizeBody_withTags _

theorem qlogBody_withTags : qlogBody (withTags x b s) = (qlogBody s).map (withTags x b) := by
  have hn : numInt (withTags x b s) = numInt s := rfl
  have hp : pivotSample (withTags x b s) = pivotSample s := rfl
  simp only [qlogBody, hn, hp]
  cases numInt s with
  | error e => rfl
  | ok n =>
    cases pivotSample s with
    | error e => rfl
    | ok p => exact quantizeBody_withTags _

theorem packBody_withTags : packBody (withTags x b s) = (packBody s).map (withTags x b) := by
  have hread : newSize (withTags x b s) = newSize s := rfl
  unfold packBody
  rw [hread]
  split
  · rfl
  · unfold withTags
    dsimp only
    split <;> rfl

/-- A command other than LOAD and RUN carries the stream and TRUNC along unread. -/
theorem bodyOf_withTags (hload : i ≠ .load) (hrun : i ≠ .run) :
    bodyOf i (withTags x b s) = (bodyOf i s).map (withTags x b) := by
  cases i with
  | nop | setscale | setquant | setmode => rfl
  | load => exact absurd rfl hload
  | pivot => exact pivotBody_withTags
  | resample => exact resampleBody_withTags
  | quni => exact quniBody_withTags
  | qlog => exact qlogBody_withTags
  | pack => exact packBody_withTags
  | run => exact absurd rfl hrun

theorem legalNow_withTags : legalNow i (withTags x b s) = legalNow i s := by cases i <;> rfl

theorem exec_withTags (hload : i ≠ .load) (hrun : i ≠ .run) (h : exec i s = .next t) :
    exec i (withTags x b s) = .next (withTags x b t) := by
  obtain ⟨herror, rfl⟩ | ⟨hne, hillegal, rfl⟩ | ⟨hne, hlegal, hbody⟩ := exec_cases h
  · exact exec_of_error (s := withTags x b t) herror i
  · exact exec_of_not_legal hne (legalNow_withTags.trans hillegal)
  · exact exec_of_body hne (legalNow_withTags.trans hlegal) (by rw [bodyOf_withTags hload hrun, hbody]; rfl)

/-- Settles O24. The command ends with the other stream in its place, and with TRUNC as it was. -/
theorem onlyLoadAndRunReadTheStream : Obligations.OnlyLoadAndRunReadTheStream := by
  intro i s t x hload hrun hexec
  have htrunc : t.trunc = s.trunc := (exec_effect hexec).trunc_eq hload hrun
  calc exec i { s with input := x } = .next (withTags x s.trunc t) := exec_withTags hload hrun hexec
    _ = .next { t with input := x } := by rw [← htrunc]; rfl

/-! ### TRUNC (R185) -/

/-- LOAD overwrites TRUNC, or raises an error that leaves it. -/
theorem loadBody_withTrunc (b : Bool) (h : loadBody s = .ok t) :
    (t.phase = .error ∧ loadBody { s with trunc := b } = .ok { t with trunc := b }) ∨
    (t.phase ≠ .error ∧ loadBody { s with trunc := b } = .ok t) := by
  obtain ⟨hparams, rfl⟩ | ⟨hparams, hinput, rfl⟩ | ⟨bytes, src, hparams, hinput, hsrc, rfl⟩ := loadBody_ok h
  · exact .inl ⟨rfl, loadBody_of_badParameters (s := { s with trunc := b }) hparams⟩
  · exact .inl ⟨rfl, loadBody_of_absentStream (s := { s with trunc := b }) hparams hinput⟩
  · exact .inr ⟨nofun, loadBody_of_planes (s := { s with trunc := b }) hparams hinput hsrc⟩

/-- RUN goes on from LOAD's state, or ends with LOAD's error. -/
theorem runBody_withTrunc (b : Bool) (h : runBody s = .ok t) :
    runBody { s with trunc := b } = .ok { t with trunc := b } ∨ runBody { s with trunc := b } = .ok t := by
  obtain ⟨u, hu, hrest⟩ := thenBody_ok h
  obtain ⟨herror, hload⟩ | ⟨hne, hload⟩ := loadBody_withTrunc b hu
  · obtain ⟨-, rfl⟩ | ⟨hne, -⟩ := hrest
    · exact .inl (by simp only [runBody, thenBody, hload, herror, if_true])
    · exact absurd herror hne
  · obtain ⟨herror, -⟩ | ⟨-, hrest⟩ := hrest
    · exact absurd herror hne
    · exact .inr ((thenBody_of_ok hload hne).trans hrest)

theorem bodyOf_withTrunc (b : Bool) (hi : i = .load ∨ i = .run) (h : bodyOf i s = .ok t) :
    bodyOf i { s with trunc := b } = .ok { t with trunc := b } ∨ bodyOf i { s with trunc := b } = .ok t := by
  obtain rfl | rfl := hi
  · exact (loadBody_withTrunc b h).imp And.right And.right
  · exact runBody_withTrunc b h

/-- Settles O53. LOAD and RUN overwrite TRUNC, or raise an error that leaves it; every other command carries it
along. -/
theorem truncationDoesNotInfluence : Obligations.TruncationDoesNotInfluence := by
  intro i s t b hexec
  by_cases hi : i = .load ∨ i = .run
  · have hlegalNow : legalNow i { s with trunc := b } = legalNow i s := legalNow_withTags (x := s.input)
    obtain ⟨herror, rfl⟩ | ⟨hne, hillegal, rfl⟩ | ⟨hne, hlegal, hbody⟩ := exec_cases hexec
    · exact ⟨_, exec_of_error (s := { t with trunc := b }) herror i, rfl⟩
    · exact ⟨_, exec_of_not_legal hne (hlegalNow.trans hillegal), rfl⟩
    · obtain hbody | hbody := bodyOf_withTrunc b hi hbody
      · exact ⟨_, exec_of_body hne (hlegalNow.trans hlegal) hbody, rfl⟩
      · exact ⟨_, exec_of_body hne (hlegalNow.trans hlegal) hbody, rfl⟩
  · obtain ⟨hload, hrun⟩ := not_or.mp hi
    have hinput : t.input = s.input := (exec_effect hexec).environment_eq.2.1
    exact ⟨withTags s.input b t, exec_withTags hload hrun hexec, by rw [← hinput]; rfl⟩

end Sys2Proof.Machine
end

section
/-! The invariant of the machine and the meaning of its memories: both hold after reset, and every step keeps them and
completes (10_state.md R14, R20, R21, R45; 20_memory.md R53). -/

namespace Sys2Proof.Machine

variable {s t : State}

/-- What a step owes: the invariant, and the meaning of the memories where it held before. -/
def Kept (s t : State) : Prop := Inv t ∧ (contentsOk s → contentsOk t)

/-! ### Stages that have completed, and stages to come -/

theorem not_reached {k : Nat} (h : rank s.phase < k) : ¬reached k s := fun hreached => Nat.not_lt.mpr hreached.1 h

theorem reached.elim {k : Nat} {C : Prop} (h : reached k s) (hk : rank s.phase < k) : C := absurd h (not_reached hk)

theorem before.elim {k : Nat} {C : Prop} (h : before k s) (hk : k ≤ rank s.phase) : C := absurd h (Nat.not_lt.mpr hk)

theorem reached.mono {j k : Nat} (h : reached k s) (hjk : j ≤ k) : reached j s := ⟨Nat.le_trans hjk h.1, h.2⟩

theorem not_reached_of_error (h : s.phase = .error) (k : Nat) : ¬reached k s := fun hreached => hreached.2 h

/-- Before LOAD has completed, and in ERROR, no stage's results are claimed. -/
theorem stagesDone_of_not_reached (h : ¬reached 1 s) : stagesDone s :=
  ⟨fun hr => absurd hr h, fun hr => absurd (hr.mono (by decide)) h, fun hr => absurd (hr.mono (by decide)) h,
    fun hr => absurd (hr.mono (by decide)) h, fun hr => absurd (hr.mono (by decide)) h⟩

/-- Before PIVOT has completed, and in ERROR, the memories are claimed to mean nothing. -/
theorem contentsOk_of_not_reached (h : ¬reached 2 s) : contentsOk s :=
  ⟨fun hr => absurd hr h, fun hr => absurd (hr.mono (by decide)) h, fun hr => absurd (hr.mono (by decide)) h,
    fun hr => absurd (hr.mono (by decide)) h⟩

/-! ### Reset and the environment -/

theorem inv_resetEngine (hdims : 1 ≤ s.dims.w ∧ 1 ≤ s.dims.h) : Inv (resetEngine s) where
  dimsOk := hdims
  memories := by simp [resetEngine, State.reset, Planes.unwritten]
  errors := by simp [errorsOk]
  registers := by simp [registersOk]
  done := stagesDone_of_not_reached (not_reached (by decide : 0 < 1))
  ahead := by simp [stagesAhead]

theorem contentsOk_resetEngine : contentsOk (resetEngine s) :=
  contentsOk_of_not_reached (not_reached (by decide : 0 < 2))

/-- Settles O57. Reset leaves no memory written and no register set. -/
theorem invariantAtReset : Obligations.InvariantAtReset :=
  ⟨inv_resetEngine (s := State.reset) (by decide), contentsOk_resetEngine (s := State.reset)⟩

theorem Inv.withHost (hinv : Inv s) (l : List HostAction) : Inv (withHost l s) :=
  ⟨hinv.dimsOk, hinv.memories, hinv.errors, hinv.registers, hinv.done, hinv.ahead⟩

theorem Inv.supplyStream (hinv : Inv s) (x : Option (List Byte)) : Inv (supplyStream x s) :=
  ⟨hinv.dimsOk, hinv.memories, hinv.errors, hinv.registers, hinv.done, hinv.ahead⟩

/-! ### Errors and the three SETs -/

/-- ERRINFO of a ParamError is a mask, of an IOError zero (R22). -/
def infoOk (e : ErrCode) (info : Word) : Prop :=
  (e = .paramError → 1 ≤ info.toNat ∧ info.toNat ≤ 7) ∧ (e = .ioError → info = 0)

theorem Inv.raise (hinv : Inv s) {e : ErrCode} {info : Word} (he : e ≠ .none) (hinfo : infoOk e info) :
    Inv (raise e info s) where
  dimsOk := hinv.dimsOk
  memories := hinv.memories
  errors := ⟨⟨fun h => absurd h he, fun h => absurd rfl h⟩, fun h => absurd h he, hinfo.1, hinfo.2⟩
  registers := hinv.registers
  done := stagesDone_of_not_reached (not_reached_of_error rfl 1)
  ahead := ⟨fun h => h.elim (by decide : 1 ≤ 7), fun h => h.elim (by decide : 2 ≤ 7),
    fun h => h.elim (by decide : 3 ≤ 7), fun h => h.elim (by decide : 4 ≤ 7),
    fun h => h.elim (by decide : 5 ≤ 7)⟩

theorem Inv.kept_raise (hinv : Inv s) {e : ErrCode} {info : Word} (he : e ≠ .none) (hinfo : infoOk e info) :
    Kept s (Machine.raise e info s) :=
  ⟨hinv.raise he hinfo, fun _ => contentsOk_of_not_reached (not_reached_of_error rfl 2)⟩

theorem not_reached_of_idle (h : s.phase = .idle) {k : Nat} (hk : 0 < k) : ¬reached k s :=
  not_reached (by rw [h]; exact hk)

/-- In IDLE a parameter may take any value: nothing has been computed from it. -/
theorem Inv.kept_withParameters (hinv : Inv s) (h : s.phase = .idle) (a q m : Option Arg) :
    Kept s { s with scale := a, quant := q, mode := m } :=
  ⟨⟨hinv.dimsOk, hinv.memories, hinv.errors, hinv.registers,
    stagesDone_of_not_reached (not_reached_of_idle h (by decide)), hinv.ahead⟩,
    fun _ => contentsOk_of_not_reached (not_reached_of_idle h (by decide))⟩

/-! ### What the invariant gives a stage -/

theorem Inv.exists_scale (hinv : Inv s) (h : reached 1 s) :
    ∃ a, s.scale = some a ∧ scaleNat s = a.toNat ∧ 1 ≤ a.toNat ∧ a.toNat ≤ 65536 := by
  obtain ⟨hscale, -⟩ := paramCheck_eq_zero.mp (hinv.done.1 h).1
  obtain ⟨a, ha, hlo, hhi⟩ := scaleLegal_iff.mp hscale
  exact ⟨a, ha, by simp [scaleNat, ha], hlo, hhi⟩

theorem Inv.exists_quant (hinv : Inv s) (h : reached 1 s) :
    ∃ q, s.quant = some q ∧ quantNat s = q.toNat ∧ 1 ≤ q.toNat ∧ q.toNat ≤ 8 := by
  obtain ⟨-, hquant, -⟩ := paramCheck_eq_zero.mp (hinv.done.1 h).1
  obtain ⟨q, hq, hlo, hhi⟩ := quantLegal_iff.mp hquant
  exact ⟨q, hq, by simp [quantNat, hq], hlo, hhi⟩

theorem Inv.outSize_le (hinv : Inv s) (h : reached 1 s) : outSize s ≤ s.dims.samples := by
  obtain ⟨a, -, hscale, -, hhi⟩ := hinv.exists_scale h
  exact Machine.outSize_le (hscale ▸ hhi) s.dims

/-- Past PIVOT, PIVOT is set, and a sample value unless MODE = -1 (R104). -/
theorem Inv.exists_pivot (hinv : Inv s) (h : reached 2 s) {m : Int} (hm : modeInt s = some m) :
    ∃ p, s.pivot = some p ∧ (m ≠ -1 → 0 ≤ p ∧ p ≤ 255) := by
  obtain ⟨-, hpivoted, -⟩ := hinv.done
  obtain ⟨hset, hvalue⟩ := hpivoted h
  obtain ⟨p, hp⟩ := Option.isSome_iff_exists.mp hset
  obtain ⟨hmanual, hauto⟩ := hvalue m hm p hp
  have hrange := hinv.registers.1 p hp
  exact ⟨p, hp, fun hlog => by omega⟩

/-- Outside ERROR no error has been raised, and a stage raises none. -/
theorem errorsOk_of_stage (h : errorsOk s) (hs : s.phase ≠ .error) (ht : t.phase ≠ .error) (herr : t.err = s.err)
    (hinfo : t.errinfo = s.errinfo) : errorsOk t := by
  obtain ⟨hiff, hrest⟩ := h
  unfold errorsOk
  rw [herr, hinfo]
  exact ⟨⟨fun _ => ht, fun _ => hiff.mpr hs⟩, hrest⟩

/-! ### The stages, each from the phase it starts from -/

theorem Inv.finishLoad (hinv : Inv s) (hidle : s.phase = .idle) (hparams : paramCheck s = 0) {src : Planes}
    {px : Channel → Nat → Nat} (hsrc : Planes.FilledWith s.src src s.dims.samples s.dims.samples px) (b : Bool) :
    Inv (finishLoad src b s) := by
  obtain ⟨⟨hwf, hwithin⟩, hmemories⟩ := hinv.memories
  obtain ⟨-, hpivot, hsize, hqnt, hpacked⟩ := hinv.ahead
  have hrank : rank s.phase = 0 := by rw [hidle]; rfl
  exact
    { dimsOk := hinv.dimsOk
      memories := ⟨⟨hsrc.wf hwf, hsrc.within hwithin⟩, hmemories⟩
      errors := errorsOk_of_stage hinv.errors (by simp [hidle]) nofun rfl rfl
      registers := hinv.registers
      done := ⟨fun _ => ⟨hparams, hsrc.holds.filled⟩, fun h => h.elim (by decide : 1 < 2),
        fun h => h.elim (by decide : 1 < 3), fun h => h.elim (by decide : 1 < 4),
        fun h => h.elim (by decide : 1 < 5)⟩
      ahead := ⟨fun h => h.elim (by decide : 1 ≤ 1), fun _ => hpivot (by omega),
        fun _ => hsize (by omega), fun _ => hqnt (by omega), fun _ => hpacked (by omega)⟩ }

theorem Inv.finishPivot (hinv : Inv s) (hloaded : s.phase = .loaded) {p : Int} (hp : -1 ≤ p ∧ p ≤ 255)
    (hmode : ∀ m ∈ modeInt s, (m ≠ -2 → p = m) ∧ (m = -2 → 0 ≤ p)) : Inv (finishPivot p s) := by
  obtain ⟨-, hregisters⟩ := hinv.registers
  obtain ⟨hsrc, -⟩ := hinv.done
  obtain ⟨-, -, hsize, hqnt, hpacked⟩ := hinv.ahead
  have hrank : rank s.phase = 1 := by rw [hloaded]; rfl
  exact
    { dimsOk := hinv.dimsOk
      memories := hinv.memories
      errors := errorsOk_of_stage hinv.errors (by simp [hloaded]) nofun rfl rfl
      registers := ⟨by rintro _ ⟨⟩; exact hp, hregisters⟩
      done := ⟨fun _ => hsrc (reached_of_phase hloaded (by decide)),
        fun _ => ⟨rfl, by rintro m hm _ ⟨⟩; exact hmode m hm⟩,
        fun h => h.elim (by decide : 2 < 3), fun h => h.elim (by decide : 2 < 4),
        fun h => h.elim (by decide : 2 < 5)⟩
      ahead := ⟨fun h => h.elim (by decide : 1 ≤ 2), fun h => h.elim (by decide : 2 ≤ 2),
        fun _ => hsize (by omega), fun _ => hqnt (by omega), fun _ => hpacked (by omega)⟩ }

theorem Inv.finishResample (hinv : Inv s) (hpivoted : s.phase = .pivoted) {rnd : Planes} {px : Channel → Nat → Nat}
    (hrnd : Planes.FilledWith s.rnd rnd s.dims.samples (outSize s) px) :
    Inv (finishResample (outDims s.dims (scaleNat s)).1 (outDims s.dims (scaleNat s)).2 rnd s) := by
  obtain ⟨hsrcMemory, ⟨hwf, hwithin⟩, hmemories⟩ := hinv.memories
  obtain ⟨hpivotRange, -⟩ := hinv.registers
  obtain ⟨hsrc, hpivot, -⟩ := hinv.done
  obtain ⟨-, -, -, hqnt, hpacked⟩ := hinv.ahead
  have hrank : rank s.phase = 2 := by rw [hpivoted]; rfl
  have hreached : reached 2 s := reached_of_phase hpivoted (by decide)
  obtain ⟨a, -, hscale, -, hhi⟩ := hinv.exists_scale (hreached.mono (by decide))
  obtain ⟨hw, hh⟩ := outDims_le (hscale ▸ hhi) s.dims
  exact
    { dimsOk := hinv.dimsOk
      memories := ⟨hsrcMemory, ⟨hrnd.wf hwf, hrnd.within hwithin⟩, hmemories⟩
      errors := errorsOk_of_stage hinv.errors (by simp [hpivoted]) nofun rfl rfl
      registers := ⟨hpivotRange, by rintro _ ⟨⟩; exact hw, by rintro _ ⟨⟩; exact hh⟩
      done := ⟨fun _ => hsrc (hreached.mono (by decide)), fun _ => hpivot hreached,
        fun _ => ⟨rfl, rfl, hrnd.holds.filled⟩,
        fun h => h.elim (by decide : 3 < 4), fun h => h.elim (by decide : 3 < 5)⟩
      ahead := ⟨fun h => h.elim (by decide : 1 ≤ 3), fun h => h.elim (by decide : 2 ≤ 3),
        fun h => h.elim (by decide : 3 ≤ 3), fun _ => hqnt (by omega), fun _ => hpacked (by omega)⟩ }

theorem Inv.finishQuantize (hinv : Inv s) (hresampled : s.phase = .resampled) {qnt : Planes}
    {px : Channel → Nat → Nat} (hqnt : Planes.FilledWith s.qnt qnt s.dims.samples (outSize s) px) :
    Inv (finishQuantize qnt s) := by
  obtain ⟨hsrcMemory, hrndMemory, ⟨hwf, hwithin⟩, hpackedMemory⟩ := hinv.memories
  obtain ⟨hsrc, hpivot, hrnd, -⟩ := hinv.done
  obtain ⟨-, -, -, -, hpacked⟩ := hinv.ahead
  have hrank : rank s.phase = 3 := by rw [hresampled]; rfl
  have hreached : reached 3 s := reached_of_phase hresampled (by decide)
  exact
    { dimsOk := hinv.dimsOk
      memories := ⟨hsrcMemory, hrndMemory, ⟨hqnt.wf hwf, hqnt.within hwithin⟩, hpackedMemory⟩
      errors := errorsOk_of_stage hinv.errors (by simp [hresampled]) nofun rfl rfl
      registers := hinv.registers
      done := ⟨fun _ => hsrc (hreached.mono (by decide)), fun _ => hpivot (hreached.mono (by decide)),
        fun _ => hrnd hreached, fun _ => hqnt.holds.filled, fun h => h.elim (by decide : 4 < 5)⟩
      ahead := ⟨fun h => h.elim (by decide : 1 ≤ 4), fun h => h.elim (by decide : 2 ≤ 4),
        fun h => h.elim (by decide : 3 ≤ 4), fun h => h.elim (by decide : 4 ≤ 4),
        fun _ => hpacked (by omega)⟩ }

theorem Inv.finishPack (hinv : Inv s) (hquantized : s.phase = .quantized) {m : Memory}
    (hm : packBytes s.dims.samples (outSize s) s.qnt s.packed = .ok m) : Inv (finishPack m s) := by
  obtain ⟨hsrcMemory, hrndMemory, hqntMemory, hwf, hwithin⟩ := hinv.memories
  obtain ⟨hsrc, hpivot, hrnd, hqnt, -⟩ := hinv.done
  obtain ⟨-, -, hfilled, hwf', hwithin'⟩ := packBytes_ok hm
  have hreached : reached 4 s := reached_of_phase hquantized (by decide)
  exact
    { dimsOk := hinv.dimsOk
      memories := ⟨hsrcMemory, hrndMemory, hqntMemory, hwf' hwf, hwithin' hwithin⟩
      errors := errorsOk_of_stage hinv.errors (by simp [hquantized]) nofun rfl rfl
      registers := hinv.registers
      done := ⟨fun _ => hsrc (hreached.mono (by decide)), fun _ => hpivot (hreached.mono (by decide)),
        fun _ => hrnd (hreached.mono (by decide)), fun _ => hqnt hreached, fun _ => hfilled⟩
      ahead := ⟨fun h => h.elim (by decide : 1 ≤ 5), fun h => h.elim (by decide : 2 ≤ 5),
        fun h => h.elim (by decide : 3 ≤ 5), fun h => h.elim (by decide : 4 ≤ 5),
        fun h => h.elim (by decide : 5 ≤ 5)⟩ }

/-! ### Every body completes and keeps what it must -/

/-- From the phase `p` the body completes, keeps the invariant and the meaning, and ends in `p'` or in ERROR. -/
def StageKeeps (p : Phase) (body : State → Except Fault State) (p' : Phase) : Prop :=
  ∀ s, Inv s → s.phase = p → ∃ t, body s = .ok t ∧ Kept s t ∧ (t.phase = .error ∨ t.phase = p')

theorem StageKeeps.thenBody {p p' p'' : Phase} {f g : State → Except Fault State} (hf : StageKeeps p f p')
    (hg : StageKeeps p' g p'') : StageKeeps p (thenBody f g) p'' := by
  intro s hinv hp
  obtain ⟨u, hu, ⟨hinv', hcontents⟩, hphase⟩ := hf s hinv hp
  by_cases herror : u.phase = .error
  · exact ⟨u, by simp [Machine.thenBody, hu, herror], ⟨hinv', hcontents⟩, .inl herror⟩
  · obtain ⟨t, ht, ⟨hinv'', hcontents'⟩, hphase'⟩ := hg u hinv' (hphase.resolve_left herror)
    exact ⟨t, (thenBody_of_ok hu herror).trans ht, ⟨hinv'', hcontents' ∘ hcontents⟩, hphase'⟩

theorem loadBody_keeps : StageKeeps .idle loadBody .loaded := by
  intro s hinv hidle
  by_cases hparams : paramCheck s = 0
  · cases hinput : s.input with
    | none =>
      exact ⟨_, loadBody_of_absentStream hparams hinput, hinv.kept_raise nofun ⟨nofun, fun _ => rfl⟩, .inl rfl⟩
    | some bytes =>
      obtain ⟨src, hbody, hsrc⟩ := loadBody_filledWith hparams hinput
      exact ⟨_, hbody, ⟨hinv.finishLoad hidle hparams hsrc _,
        fun _ => contentsOk_of_not_reached (not_reached (by decide : 1 < 2))⟩, .inr rfl⟩
  · exact ⟨_, loadBody_of_badParameters hparams, hinv.kept_raise nofun ⟨fun _ => paramInfo_range hparams, nofun⟩,
      .inl rfl⟩

theorem pivotBody_keeps : StageKeeps .loaded pivotBody .pivoted := by
  intro s hinv hloaded
  have hreached : reached 1 s := reached_of_phase hloaded (by decide)
  obtain ⟨m, hm, hlo, hhi⟩ := hinv.exists_modeInt hreached
  have hsrc := hinv.src_holds hreached
  obtain ⟨huniform, hlog⟩ := pivotOf_mem hsrc.le_255 hlo hhi
  refine ⟨_, pivotBody_of_resolved (resolvePivot_eq_pivotOf hm hsrc), ⟨hinv.finishPivot hloaded ?_ ?_, fun _ => ?_⟩,
    .inr rfl⟩
  · by_cases hmode : m = -1
    · rw [huniform hmode]
      decide
    · exact (hlog hmode).imp_left (by decide : (-1 : Int) ≤ 0).trans
  · intro m' hm'
    obtain rfl : m = m' := Option.some.inj (hm.symm.trans hm')
    exact ⟨fun hmanual => if_neg hmanual, fun hauto => (hlog (by omega)).1⟩
  · refine ⟨fun _ m' hm' => ?_, fun h => h.elim (by decide : 2 < 3),
      fun h => h.elim (by decide : 2 < 4), fun h => h.elim (by decide : 2 < 5)⟩
    obtain rfl : m = m' := Option.some.inj (hm.symm.trans hm')
    rfl

theorem resampleBody_keeps : StageKeeps .pivoted resampleBody .resampled := by
  intro s hinv hpivoted
  have hreached : reached 2 s := reached_of_phase hpivoted (by decide)
  obtain ⟨a, ha, hscale, hlo, hhi⟩ := hinv.exists_scale (hreached.mono (by decide))
  obtain ⟨rnd, hbody, hrnd⟩ := resampleBody_filledWith ha hlo hhi (hinv.src_holds (hreached.mono (by decide)))
  rw [← hscale] at hbody hrnd
  refine ⟨_, hbody, ⟨hinv.finishResample hpivoted hrnd, fun ⟨hpivot, _⟩ => ?_⟩, .inr rfl⟩
  exact ⟨fun _ => hpivot hreached, fun _ c j hj => hrnd.holds.sampleAt_eq c hj,
    fun h => h.elim (by decide : 3 < 4), fun h => h.elim (by decide : 3 < 5)⟩

theorem quantizerBody_keeps : StageKeeps .resampled quantizerBody .quantized := by
  intro s hinv hresampled
  have hreached : reached 3 s := reached_of_phase hresampled (by decide)
  have hloaded : reached 1 s := hreached.mono (by decide)
  obtain ⟨q, hq, hquant, hlo, hhi⟩ := hinv.exists_quant hloaded
  obtain ⟨m, hm, -⟩ := hinv.exists_modeInt hloaded
  obtain ⟨p, hp, hrange⟩ := hinv.exists_pivot (hreached.mono (by decide)) hm
  obtain ⟨-, -, hresample, -⟩ := hinv.done
  obtain ⟨-, -, hrnd⟩ := hresample hreached
  obtain ⟨qnt, hbody, hqnt⟩ := quantizerBody_filledWith hm hq hlo hhi hp hrange (hinv.newSize_eq hreached)
    (hinv.outSize_le hloaded) (Planes.holds_of_filled hrnd)
  rw [← hquant] at hqnt
  refine ⟨_, hbody, ⟨hinv.finishQuantize hresampled hqnt, fun ⟨hpivot, hround, _⟩ => ?_⟩, .inr rfl⟩
  refine ⟨fun _ => hpivot (hreached.mono (by decide)), fun _ => hround hreached, fun _ m' hm' p' hp' c j hj => ?_,
    fun h => h.elim (by decide : 4 < 5)⟩
  obtain rfl : m = m' := Option.some.inj (hm.symm.trans hm')
  obtain rfl : p = p' := Option.some.inj (hp.symm.trans hp')
  exact hqnt.holds.sampleAt_eq c hj

theorem packBody_keeps : StageKeeps .quantized packBody .done := by
  intro s hinv hquantized
  have hreached : reached 4 s := reached_of_phase hquantized (by decide)
  obtain ⟨-, -, -, hquantize, -⟩ := hinv.done
  obtain ⟨m, hbody, hm, hpacked⟩ := packBody_of_samples (hinv.newSize_eq (hreached.mono (by decide)))
    (hinv.outSize_le (hreached.mono (by decide))) (Planes.holds_of_filled (hquantize hreached))
  refine ⟨_, hbody, ⟨hinv.finishPack hquantized hm, fun ⟨hpivot, hround, hquant, _⟩ => ?_⟩, .inr rfl⟩
  refine ⟨fun _ => hpivot (hreached.mono (by decide)), fun _ => hround (hreached.mono (by decide)),
    fun _ => hquant hreached, fun _ c j hj => ?_⟩
  obtain ⟨b, hb, hpx⟩ := hpacked c j hj
  exact (sampleAt_of_read hb).trans hpx

theorem runBody_keeps : StageKeeps .idle runBody .done :=
  loadBody_keeps.thenBody (pivotBody_keeps.thenBody (resampleBody_keeps.thenBody
    (quantizerBody_keeps.thenBody packBody_keeps)))

/-! ### Commands, words and steps -/

theorem StageKeeps.exists_kept {p p' : Phase} {body : State → Except Fault State} (h : StageKeeps p body p')
    (hinv : Inv s) (hp : s.phase = p) : ∃ t, body s = .ok t ∧ Kept s t := by
  obtain ⟨t, ht, hkept, -⟩ := h s hinv hp
  exact ⟨t, ht, hkept⟩

/-- The own rule of a legal command completes. -/
theorem bodyOf_keeps {i : Instr} (hinv : Inv s) (hl : legalNow i s = true) : ∃ t, bodyOf i s = .ok t ∧ Kept s t := by
  cases i with
  | nop => exact ⟨s, rfl, hinv, id⟩
  | setscale u => exact ⟨_, rfl, hinv.kept_withParameters (of_decide_eq_true hl) (some (unsignedArg u)) s.quant s.mode⟩
  | setquant u => exact ⟨_, rfl, hinv.kept_withParameters (of_decide_eq_true hl) s.scale (some (unsignedArg u)) s.mode⟩
  | setmode m => exact ⟨_, rfl, hinv.kept_withParameters (of_decide_eq_true hl) s.scale s.quant (some (signedArg m))⟩
  | load => exact loadBody_keeps.exists_kept hinv (of_decide_eq_true hl)
  | pivot => exact pivotBody_keeps.exists_kept hinv (of_decide_eq_true hl)
  | resample => exact resampleBody_keeps.exists_kept hinv (of_decide_eq_true hl)
  | quni =>
    obtain ⟨hp, hm⟩ := of_decide_eq_true hl
    have hbody : bodyOf .quni s = quantizerBody s := (if_pos hm).symm
    exact hbody ▸ quantizerBody_keeps.exists_kept hinv hp
  | qlog =>
    obtain ⟨hp, hm⟩ := of_decide_eq_true hl
    have hbody : bodyOf .qlog s = quantizerBody s := (if_neg hm).symm
    exact hbody ▸ quantizerBody_keeps.exists_kept hinv hp
  | pack => exact packBody_keeps.exists_kept hinv (of_decide_eq_true hl)
  | run => exact runBody_keeps.exists_kept hinv (of_decide_eq_true hl)

theorem exec_keeps (i : Instr) (hinv : Inv s) : ∃ t, exec i s = .next t ∧ Kept s t := by
  by_cases herror : s.phase = .error
  · exact ⟨s, exec_of_error herror i, hinv, id⟩
  cases hl : legalNow i s with
  | false => exact ⟨_, exec_of_not_legal herror hl, hinv.kept_raise nofun ⟨nofun, nofun⟩⟩
  | true =>
    obtain ⟨t, hbody, hkept⟩ := bodyOf_keeps hinv hl
    exact ⟨t, exec_of_body herror hl hbody, hkept⟩

theorem runWord_keeps (w : Word) (hinv : Inv s) : ∃ t, runWord w s = .next t ∧ Kept s t := by
  cases hw : decode w with
  | ok i => exact runWord_of_decode hw s ▸ exec_keeps i hinv
  | error e =>
    obtain ⟨hraised, hignored⟩ := runWord_of_illegal s (w := w) fun i hi => by rw [hw] at hi; cases hi
    by_cases herror : s.phase = .error
    · exact ⟨s, hignored herror, hinv, id⟩
    · exact ⟨_, hraised herror, hinv.kept_raise nofun ⟨nofun, nofun⟩⟩

/-- A step completes and keeps what it must, unless it is a result read that has no value. -/
theorem step_cases (hinv : Inv s) : (∃ t, step s = .next t ∧ Kept s t) ∨
    ∃ k rest r, s.host = .readResult k :: rest ∧ hostResult s k = .error r ∧ step s = .refused r := by
  cases hhost : s.host with
  | nil => exact .inl ⟨s, step_of_idleHost hhost, hinv, id⟩
  | cons a rest =>
    have hstep : step s = takeAction a (withHost rest s) := step_of_action hhost
    have hinv' : Inv (withHost rest s) := hinv.withHost rest
    rw [hstep]
    cases a with
    | reset => exact .inl ⟨_, rfl, inv_resetEngine hinv.dimsOk, fun _ => contentsOk_resetEngine⟩
    | command w => exact .inl (runWord_keeps w hinv')
    | supply x => exact .inl ⟨_, rfl, hinv'.supplyStream x, id⟩
    | readStatus => exact .inl ⟨_, rfl, hinv', id⟩
    | readResult k =>
      have hread : hostResult (withHost rest s) k = hostResult s k := rfl
      cases hresult : hostResult s k with
      | ok v => exact .inl ⟨_, takeAction_readResult (hread.trans hresult), hinv', id⟩
      | error r => exact .inr ⟨k, rest, r, rfl, hresult, by simp only [takeAction, hread, hresult]⟩

theorem kept_of_step (hinv : Inv s) (h : step s = .next t) : Kept s t := by
  obtain ⟨u, hu, hkept⟩ | ⟨k, rest, r, -, -, hr⟩ := step_cases hinv
  · obtain rfl : u = t := Host.Outcome.next.inj (hu.symm.trans h)
    exact hkept
  · cases hr.symm.trans h

/-- Settles O58. Each host action keeps the invariant; a command does so stage by stage. -/
theorem everyStepKeepsTheInvariant : Obligations.EveryStepKeepsTheInvariant := fun _ _ hinv hstep =>
  (kept_of_step hinv hstep).1

/-- Settles O59. A stage writes what the rules compute from what the stages before it have left, and nothing that an
earlier stage has left. -/
theorem everyStepKeepsTheContents : Obligations.EveryStepKeepsTheContents := fun _ _ hinv hcontents hstep =>
  (kept_of_step hinv hstep).2 hcontents

/-- Settles O60. The only step without a next state is a result read that has no value, and under the invariant every
location below 3 * OUTW * OUTH has one in DONE. -/
theorem noStepFaults : Obligations.NoStepFaults := by
  intro s hinv
  obtain ⟨t, hnext, -⟩ | ⟨k, rest, r, hhost, hresult, hrefused⟩ := step_cases hinv
  · rw [hnext]
    exact ⟨nofun, nofun⟩
  · rw [hrefused]
    refine ⟨nofun, fun _ _ => ⟨k, rest, hhost, ?_⟩⟩
    by_contra! hreadable
    obtain ⟨v, hv, -⟩ := hinv.exists_hostResult hreadable.1 hreadable.2
    cases hv.symm.trans hresult

end Sys2Proof.Machine
end

section
/-! The two searches of the logarithmic quantiser, over the integers: they find the greatest integers of the rules, and
the clamps do what the rules say of them (45_quantizer_logarithmic_pivot.md R146, R148, R151-R154). -/

namespace Sys2Proof.Machine

/-! ### The bounded search -/

/-- Where what holds of an integer holds of every lesser one, holds of 0, and fails just past the bound, the search
separates the integers of which it holds from the others. -/
theorem le_greatestUpTo_iff {P : Nat → Prop} [DecidablePred P] {bound : Nat} (hanti : ∀ {j k}, j ≤ k → P k → P j)
    (hzero : P 0) (hbound : ¬P (bound + 1)) (k : Nat) : P k ↔ k ≤ greatestUpTo (fun k => decide (P k)) bound := by
  have hlt : ∀ {j}, ¬P j → P k → k < j := fun hj hk => Nat.lt_of_not_le fun hjk => hj (hanti hjk hk)
  induction bound with
  | zero => exact ⟨fun hk => Nat.le_of_lt_succ (hlt hbound hk), fun hk => Nat.le_zero.mp hk ▸ hzero⟩
  | succ bound ih =>
    rw [greatestUpTo]
    split
    · next hlast => exact ⟨fun hk => Nat.le_of_lt_succ (hlt hbound hk), fun hk => hanti hk (of_decide_eq_true hlast)⟩
    · next hlast => exact ih fun h => hlast (decide_eq_true h)

theorem greatestUpTo_le (ok : Nat → Bool) (bound : Nat) : greatestUpTo ok bound ≤ bound := by
  induction bound with
  | zero => exact le_rfl
  | succ bound ih =>
    rw [greatestUpTo]
    split
    · exact le_rfl
    · exact Nat.le_succ_of_le ih

/-! ### The constants (R151) -/

variable {v p n k : Nat}

theorem pivotP1_pos (p : Nat) : 0 < pivotP1 p := Nat.add_pos_left Nat.one_pos p

theorem pivotA_eq (p : Nat) : pivotA p = pivotP1 p * (256 - p) := rfl

theorem one_lt_pivotA (hp : p ≤ 255) : 1 < pivotA p := by
  rcases Nat.eq_zero_or_pos p with rfl | hpos
  · decide
  · calc 1 < pivotP1 p := Nat.lt_add_of_pos_right hpos
      _ ≤ pivotA p := Nat.le_mul_of_pos_right _ (by omega)

theorem pivotA_pos (hp : p ≤ 255) : 0 < pivotA p := Nat.zero_lt_of_lt (one_lt_pivotA hp)

theorem idxDen_pos (v p n : Nat) : 0 < idxDen v p n := by
  unfold idxDen
  split
  · exact Nat.one_pos
  · exact Nat.pow_pos (by omega)

/-! ### The interval index (R146, R151) -/

/-- Every sample is at or above the lower end of the range. -/
theorem idxDen_le_idxNum (v p n : Nat) : idxDen v p n ≤ idxNum v p n := by
  unfold idxDen idxNum pivotP1
  split
  · exact Nat.one_le_pow _ _ (Nat.mul_pos (by omega) (by omega))
  · exact Nat.pow_le_pow_left (by omega) n

/-- Of the samples other than the pivot only 255 is at the upper end of the range, and none beyond it. -/
theorem pivotA_pow_mul_idxDen (hv : v ≤ 255) (hp : p ≤ 255) (hne : v ≠ p) (hn : n ≠ 0) :
    idxNum v p n ≤ pivotA p ^ n * idxDen v p n ∧ (pivotA p ^ n * idxDen v p n ≤ idxNum v p n ↔ v = 255) := by
  unfold idxNum idxDen
  split
  · rw [Nat.mul_one, Nat.pow_le_pow_iff_left hn, Nat.pow_le_pow_iff_left hn, pivotA_eq, Nat.mul_comm _ (pivotP1 p),
      Nat.mul_le_mul_left_iff (pivotP1_pos p), Nat.mul_le_mul_left_iff (pivotP1_pos p)]
    omega
  · have hlt : pivotP1 p < pivotA p * (1 + p - v) := by
      calc pivotP1 p < pivotP1 p * 2 := by have := pivotP1_pos p; omega
        _ ≤ pivotP1 p * (256 - p) * (1 + p - v) := by
          rw [Nat.mul_assoc]
          exact Nat.mul_le_mul_left _ (Nat.mul_le_mul (by omega : 1 ≤ 256 - p) (by omega : 2 ≤ 1 + p - v))
    rw [← Nat.mul_pow, Nat.pow_le_pow_iff_left hn, Nat.pow_le_pow_iff_left hn]
    omega

/-- The search for the interval index finds the greatest k of R151. -/
theorem le_idxQuotient_iff (hv : v ≤ 255) (hp : p ≤ 255) (hne : v ≠ p) (hn : n ≠ 0) (k : Nat) :
    pivotA p ^ k * idxDen v p n ≤ idxNum v p n ↔ k ≤ idxQuotient v p n := by
  have hmono : StrictMono fun k => pivotA p ^ k * idxDen v p n := strictMono_nat_of_lt_succ fun k =>
    Nat.mul_lt_mul_of_pos_right (Nat.pow_lt_pow_succ (one_lt_pivotA hp)) (idxDen_pos v p n)
  refine le_greatestUpTo_iff (P := fun k => pivotA p ^ k * idxDen v p n ≤ idxNum v p n)
    (fun hjk hk => (hmono.monotone hjk).trans hk) ?_ ?_ k
  · rw [pow_zero, Nat.one_mul]
    exact idxDen_le_idxNum v p n
  · exact Nat.not_le.mpr ((pivotA_pow_mul_idxDen hv hp hne hn).1.trans_lt (hmono (Nat.lt_succ_self n)))

theorem idxQuotient_eq_iff (hv : v ≤ 255) (hp : p ≤ 255) (hne : v ≠ p) (hn : n ≠ 0) :
    idxQuotient v p n = n ↔ v = 255 := by
  have hle : idxQuotient v p n ≤ n := greatestUpTo_le _ n
  rw [← (pivotA_pow_mul_idxDen hv hp hne hn).2, le_idxQuotient_iff hv hp hne hn]
  omega

theorem idxExact_lt (hn : n ≠ 0) : idxExact v p n < n :=
  Nat.lt_of_le_of_lt (Nat.min_le_right ..) (Nat.sub_one_lt hn)

/-- Settles O41. At k = n the inequality of R151 says that v is 255; below that the quotient is its own clamp. -/
theorem onlyTheTopSampleIsClamped : Obligations.OnlyTheTopSampleIsClamped := by
  intro v p q hv hp hne _ _
  have hn : 2 ^ q ≠ 0 := (Nat.two_pow_pos q).ne'
  have htop : idxQuotient v p (2 ^ q) = 2 ^ q ↔ v = 255 := idxQuotient_eq_iff hv hp hne hn
  have hle : idxQuotient v p (2 ^ q) ≤ 2 ^ q := greatestUpTo_le _ _
  refine ⟨htop, fun hv => ?_, fun hv => ?_, idxExact_lt hn⟩
  · have hlt : idxQuotient v p (2 ^ q) ≠ 2 ^ q := fun h => hv (htop.mp h)
    exact Nat.min_eq_left (by omega)
  · rw [idxExact, htop.mpr hv]
    exact Nat.min_eq_right (Nat.sub_le ..)

/-! ### The distance from the pivot (R148, R152) -/

/-- `m` is at most the rounded distance of the midpoint of interval `idx`, where that lies above the pivot. -/
abbrev withinAbove (idx p n m : Nat) : Prop :=
  ((2 * m + 1) * pivotP1 p) ^ (2 * n) ≤ 2 ^ (2 * n) * pivotA p ^ (2 * idx + 1)

/-- `m` is at most the rounded distance of the midpoint of interval `idx`, where that lies below the pivot. -/
abbrev withinBelow (idx p n m : Nat) : Prop :=
  (2 * m + 1) ^ (2 * n) * pivotA p ^ (2 * idx + 1) ≤ (2 * pivotP1 p) ^ (2 * n)

variable {idx : Nat}

theorem withinAbove.mono {j k : Nat} (h : withinAbove idx p n k) (hjk : j ≤ k) : withinAbove idx p n j :=
  (Nat.pow_le_pow_left (Nat.mul_le_mul_right _ (by omega)) _).trans h

theorem withinBelow.mono {j k : Nat} (h : withinBelow idx p n k) (hjk : j ≤ k) : withinBelow idx p n j :=
  (Nat.mul_le_mul_right _ (Nat.pow_le_pow_left (by omega) _)).trans h

/-- The midpoint lies below the upper end of the range, whose distance is 255 - p. -/
theorem not_withinAbove (hp : p ≤ 255) (hidx : idx < n) : ¬withinAbove idx p n (256 - p) := by
  have hbase : 2 * pivotA p < (2 * (256 - p) + 1) * pivotP1 p := by
    calc 2 * pivotA p = 2 * (256 - p) * pivotP1 p := by rw [pivotA_eq]; ring
      _ < (2 * (256 - p) + 1) * pivotP1 p := Nat.mul_lt_mul_of_pos_right (Nat.lt_succ_self _) (pivotP1_pos p)
  refine Nat.not_le.mpr ?_
  calc 2 ^ (2 * n) * pivotA p ^ (2 * idx + 1)
    _ ≤ 2 ^ (2 * n) * pivotA p ^ (2 * n) := Nat.mul_le_mul_left _ (Nat.pow_le_pow_right (pivotA_pos hp) (by omega))
    _ = (2 * pivotA p) ^ (2 * n) := (Nat.mul_pow ..).symm
    _ < ((2 * (256 - p) + 1) * pivotP1 p) ^ (2 * n) := Nat.pow_lt_pow_left hbase (by omega)

/-- The midpoint lies above the lower end of the range, whose distance is p. -/
theorem not_withinBelow (hp : p ≤ 255) (hidx : idx < n) : ¬withinBelow idx p n (p + 1) := by
  refine Nat.not_le.mpr ?_
  calc (2 * pivotP1 p) ^ (2 * n)
    _ < (2 * (p + 1) + 1) ^ (2 * n) := Nat.pow_lt_pow_left (by simp only [pivotP1]; omega) (by omega)
    _ ≤ (2 * (p + 1) + 1) ^ (2 * n) * pivotA p ^ (2 * idx + 1) :=
      Nat.le_mul_of_pos_right _ (Nat.pow_pos (pivotA_pos hp))

theorem withinAbove_zero (h : pivotP1 p ^ (2 * n) ≤ pivotA p ^ (2 * idx + 1)) : withinAbove idx p n 0 := by
  rw [withinAbove, Nat.mul_zero, Nat.zero_add, Nat.one_mul]
  exact h.trans (Nat.le_mul_of_pos_left _ (Nat.two_pow_pos _))

theorem withinBelow_zero (h : pivotA p ^ (2 * idx + 1) < pivotP1 p ^ (2 * n)) : withinBelow idx p n 0 := by
  rw [withinBelow, Nat.mul_zero, Nat.zero_add, Nat.one_pow, Nat.one_mul]
  exact h.le.trans (Nat.pow_le_pow_left (Nat.le_mul_of_pos_left _ two_pos) _)

/-- Above the pivot the search finds the greatest m of R152, and the distance stays below the end of the range. -/
theorem exists_reconDistance_above (hp : p ≤ 255) (hidx : idx < n)
    (h : pivotP1 p ^ (2 * n) ≤ pivotA p ^ (2 * idx + 1)) :
    ∃ r : Nat, reconDistance idx p n = r ∧ ∀ m, withinAbove idx p n m ↔ m ≤ r := by
  refine ⟨_, if_pos h, le_greatestUpTo_iff (P := withinAbove idx p n) (fun hjk hk => hk.mono hjk)
    (withinAbove_zero h) ?_⟩
  exact fun hk => not_withinAbove hp hidx (hk.mono (by omega))

/-- Below the pivot the search finds the greatest m of R152. -/
theorem exists_reconDistance_below (hp : p ≤ 255) (hidx : idx < n)
    (h : pivotA p ^ (2 * idx + 1) < pivotP1 p ^ (2 * n)) :
    ∃ r : Nat, reconDistance idx p n = -r ∧ ∀ m, withinBelow idx p n m ↔ m ≤ r := by
  refine ⟨_, if_neg (Nat.not_le.mpr h), le_greatestUpTo_iff (P := withinBelow idx p n)
    (fun hjk hk => hk.mono hjk) (withinBelow_zero h) ?_⟩
  exact fun hk => not_withinBelow hp hidx (hk.mono (by omega))

/-- Settles O42. Each inequality holds of every integer up to some point, and of none past the bound of its search. -/
theorem searchBoundsDoNotBind : Obligations.SearchBoundsDoNotBind :=
  ⟨fun _ _ q hv hp hne _ _ k => le_idxQuotient_iff hv hp hne (Nat.two_pow_pos q).ne' k,
    fun _ _ _ hp _ _ hidx => ⟨exists_reconDistance_above hp hidx, exists_reconDistance_below hp hidx⟩⟩

/-- The reconstructed value lies in the range before it is clamped. -/
theorem pivot_add_reconDistance_mem (hp : p ≤ 255) (hidx : idx < n) :
    0 ≤ (p : Int) + reconDistance idx p n ∧ (p : Int) + reconDistance idx p n ≤ 255 := by
  rcases Nat.lt_or_ge (pivotA p ^ (2 * idx + 1)) (pivotP1 p ^ (2 * n)) with hbelow | habove
  · obtain ⟨r, hr, hiff⟩ := exists_reconDistance_below hp hidx hbelow
    have hlt : ¬p + 1 ≤ r := fun h => not_withinBelow hp hidx ((hiff _).mpr h)
    omega
  · obtain ⟨r, hr, hiff⟩ := exists_reconDistance_above hp hidx habove
    have hlt : ¬256 - p ≤ r := fun h => not_withinAbove hp hidx ((hiff _).mpr h)
    omega

/-- Settles O43. The distance is at most 255 - p above the pivot, and at most p below it. -/
theorem finalClampNeverActs : Obligations.FinalClampNeverActs := fun _ _ _ hp _ _ hidx =>
  pivot_add_reconDistance_mem hp hidx

/-! ### The levels (R154) -/

/-- A level is the pivot or the reconstruction of one of the `n` intervals. -/
theorem quantLog_mem_levels (hn : n ≠ 0) (v p : Nat) :
    quantLog v p n ∈ insert p ((Finset.range n).image fun idx => reconExact idx p n) := by
  unfold quantLog
  split
  · exact Finset.mem_insert_self ..
  · exact Finset.mem_insert_of_mem (Finset.mem_image_of_mem _ (Finset.mem_range.mpr (idxExact_lt hn)))

theorem card_levels_le (hn : n ≠ 0) (p : Nat) (vs : Finset Nat) : (vs.image fun v => quantLog v p n).card ≤ n + 1 := by
  have hlevels : (vs.image fun v => quantLog v p n) ⊆ insert p ((Finset.range n).image fun idx => reconExact idx p n) :=
    Finset.image_subset_iff.mpr fun v _ => quantLog_mem_levels hn v p
  calc (vs.image fun v => quantLog v p n).card
    _ ≤ (insert p ((Finset.range n).image fun idx => reconExact idx p n)).card := Finset.card_le_card hlevels
    _ ≤ ((Finset.range n).image fun idx => reconExact idx p n).card + 1 := Finset.card_insert_le ..
    _ ≤ n + 1 := Nat.succ_le_succ (Finset.card_image_le.trans_eq (Finset.card_range n))

/-- Samples of the nine levels of p = 128 and n = 8: one in each interval, and the pivot (scenario C of 95). -/
def levelSamples : Finset Nat := {0, 100, 118, 127, 128, 129, 138, 139, 255}

theorem image_levelSamples :
    (levelSamples.image fun v => quantLog v 128 8) = {59, 108, 123, 127, 128, 129, 133, 148, 197} := by
  decide +kernel

/-- Settles O44. There are at most n intervals besides the pivot; for p = 128 and n = 8 nine samples reach nine
levels. -/
theorem logLevelCount : Obligations.LogLevelCount := by
  refine ⟨fun p q _ _ _ => card_levels_le (Nat.two_pow_pos q).ne' p _, ?_⟩
  have hsub : levelSamples ⊆ Finset.range 256 := by decide
  have hle : 9 ≤ ((Finset.range 256).image fun v => quantLog v 128 8).card := by
    have hcard := Finset.card_le_card (Finset.image_subset_image (f := fun v => quantLog v 128 8) hsub)
    rwa [image_levelSamples] at hcard
  exact Nat.le_antisymm (card_levels_le (by decide) 128 _) hle

end Sys2Proof.Machine
end

section
/-! The logarithmic quantiser over the real numbers: each comparison of the source's formulas is one comparison of
logarithms of natural numbers, and so one of the integer forms (45_quantizer_logarithmic_pivot.md R143-R152). -/

namespace Sys2Proof.Machine

variable {b : ℝ} {v p n idx m : Nat}

/-! ### Logarithms and floors of natural numbers -/

theorem logb_natCast_le_iff (hb : 1 < b) {x y : Nat} (hx : 0 < x) (hy : 0 < y) :
    Real.logb b x ≤ Real.logb b y ↔ x ≤ y := by
  rw [Real.logb_le_logb hb (Nat.cast_pos.mpr hx) (Nat.cast_pos.mpr hy), Nat.cast_le]

theorem logb_natCast_mul (b : ℝ) {x y : Nat} (hx : 0 < x) (hy : 0 < y) :
    Real.logb b (x * y : Nat) = Real.logb b x + Real.logb b y := by
  rw [Nat.cast_mul, Real.logb_mul (Nat.cast_ne_zero.mpr hx.ne') (Nat.cast_ne_zero.mpr hy.ne')]

theorem logb_natCast_pow (b : ℝ) (x k : Nat) : Real.logb b (x ^ k : Nat) = k * Real.logb b x := by
  rw [Nat.cast_pow, Real.logb_pow]

theorem floor_eq_of_natCast_le_iff {x : ℝ} {r : Nat} (h : ∀ m : Nat, (m : ℝ) ≤ x ↔ m ≤ r) : ⌊x⌋ = (r : Int) := by
  have hlt : ¬((r + 1 : Nat) : ℝ) ≤ x := fun hle => Nat.not_succ_le_self r ((h _).mp hle)
  push_cast at hlt
  exact Int.floor_eq_iff.mpr ⟨by exact_mod_cast (h r).mpr le_rfl, by exact_mod_cast not_le.mp hlt⟩

/-! ### The logarithmic scale (R143-R145) -/

theorem logScale_of_le (b : ℝ) (h : p ≤ v) : logScale b v p = Real.logb b (1 + v - p : Nat) := by
  have hcast : ((1 + v - p : Nat) : ℝ) = 1 + ((v : ℝ) - p) := by
    rw [Nat.cast_sub (by omega)]
    push_cast
    ring
  rw [logScale, hcast]
  obtain rfl | hlt := h.eq_or_lt
  · simp
  · have hpos : 0 < (v : ℝ) - p := sub_pos.mpr (Nat.cast_lt.mpr hlt)
    rw [Real.sign_of_pos hpos, abs_of_pos hpos, one_mul]

theorem logScale_of_ge (b : ℝ) (h : v ≤ p) : logScale b v p = -Real.logb b (1 + p - v : Nat) := by
  have hcast : ((1 + p - v : Nat) : ℝ) = 1 + -((v : ℝ) - p) := by
    rw [Nat.cast_sub (by omega)]
    push_cast
    ring
  rw [logScale, hcast]
  obtain rfl | hlt := h.eq_or_lt
  · simp
  · have hneg : (v : ℝ) - p < 0 := sub_neg.mpr (Nat.cast_lt.mpr hlt)
    rw [Real.sign_of_neg hneg, abs_of_neg hneg, neg_one_mul]

theorem logScale_zero (b : ℝ) (p : Nat) : logScale b 0 p = -Real.logb b (pivotP1 p) := logScale_of_ge b (Nat.zero_le p)

theorem logb_pivotA (b : ℝ) (hp : p ≤ 255) :
    Real.logb b (pivotA p) = Real.logb b (256 - p : Nat) + Real.logb b (pivotP1 p) := by
  rw [pivotA_eq, logb_natCast_mul b (pivotP1_pos p) (by omega), add_comm]

/-- The range of the scale is log A (R145). -/
theorem intervalSize_eq (b : ℝ) (hp : p ≤ 255) (n : Nat) : intervalSize b p n = Real.logb b (pivotA p) / n := by
  rw [intervalSize, logScale_zero, logScale_of_le b hp, logb_pivotA b hp, sub_neg_eq_add]

theorem logb_pivotA_pos (hb : 1 < b) (hp : p ≤ 255) : 0 < Real.logb b (pivotA p) :=
  Real.logb_pos hb (Nat.one_lt_cast.mpr (one_lt_pivotA hp))

/-! ### The interval index (R146, R151) -/

/-- The height of a sample above the lower end of the range, as the fraction of R151. -/
theorem mul_logScale_sub_eq (b : ℝ) (v p n : Nat) :
    n * (logScale b v p - logScale b 0 p) = Real.logb b (idxNum v p n) - Real.logb b (idxDen v p n) := by
  rw [logScale_zero]
  unfold idxNum idxDen
  split
  · next hlt =>
    rw [logScale_of_le b hlt.le, logb_natCast_pow, logb_natCast_mul b (by omega) (pivotP1_pos p), Nat.cast_one,
      Real.logb_one]
    ring
  · next hle =>
    rw [logScale_of_ge b (Nat.le_of_not_lt hle), logb_natCast_pow, logb_natCast_pow]
    ring

theorem idxNum_pos (v p n : Nat) : 0 < idxNum v p n := (idxDen_pos v p n).trans_le (idxDen_le_idxNum v p n)

/-- A number of whole intervals fits below a sample exactly where the inequality of R151 holds. -/
theorem natCast_le_intervals_iff (hb : 1 < b) (hp : p ≤ 255) (v k : Nat) :
    (k : ℝ) ≤ (logScale b v p - logScale b 0 p) / intervalSize b p n ↔
      pivotA p ^ k * idxDen v p n ≤ idxNum v p n := by
  have hApos : 0 < pivotA p ^ k := Nat.pow_pos (pivotA_pos hp)
  have hden := idxDen_pos v p n
  have hlog : Real.logb b (pivotA p ^ k * idxDen v p n : Nat) =
      k * Real.logb b (pivotA p) + Real.logb b (idxDen v p n) := by
    rw [logb_natCast_mul b hApos hden, logb_natCast_pow]
  rw [intervalSize_eq b hp, div_div_eq_mul_div, le_div_iff₀ (logb_pivotA_pos hb hp), mul_comm _ (n : ℝ),
    mul_logScale_sub_eq, ← logb_natCast_le_iff hb (Nat.mul_pos hApos hden) (idxNum_pos v p n), hlog, le_sub_iff_add_le]

theorem clampInt_natCast (k : Nat) (hn : n ≠ 0) : clampInt k 0 (n - 1) = (min k (n - 1) : Nat) := by
  have hpos : 1 ≤ n := Nat.pos_of_ne_zero hn
  unfold clampInt
  split
  · omega
  · split
    · omega
    · omega

/-- The interval index of the source's formula is that of the integer form. -/
theorem intervalIndex_eq_idxExact (hb : 1 < b) (hv : v ≤ 255) (hp : p ≤ 255) (hne : v ≠ p) (hn : n ≠ 0) :
    intervalIndex b v p n = idxExact v p n := by
  have hfloor : ⌊(logScale b v p - logScale b 0 p) / intervalSize b p n⌋ = (idxQuotient v p n : Int) :=
    floor_eq_of_natCast_le_iff fun k =>
      (natCast_le_intervals_iff hb hp v k).trans (le_idxQuotient_iff hv hp hne hn k)
  rw [intervalIndex, hfloor, clampInt_natCast _ hn, idxExact]

/-! ### The distance from the pivot (R147, R148, R152) -/

/-- The midpoint of interval `idx` on the logarithmic scale (R147). -/
noncomputable def midpoint (b : ℝ) (idx p n : Nat) : ℝ := logScale b 0 p + ((idx : ℝ) + 1 / 2) * intervalSize b p n

theorem mul_midpoint_eq (b : ℝ) (hp : p ≤ 255) (hn : n ≠ 0) (idx : Nat) :
    2 * n * midpoint b idx p n =
      Real.logb b (pivotA p ^ (2 * idx + 1) : Nat) - Real.logb b (pivotP1 p ^ (2 * n) : Nat) := by
  have hn : (n : ℝ) ≠ 0 := Nat.cast_ne_zero.mpr hn
  rw [midpoint, logScale_zero, intervalSize_eq b hp, logb_natCast_pow, logb_natCast_pow]
  push_cast
  field_simp
  ring

/-- The midpoint lies at or above the pivot exactly where the test of R152 says so. -/
theorem midpoint_nonneg_iff (hb : 1 < b) (hp : p ≤ 255) (hn : n ≠ 0) :
    0 ≤ midpoint b idx p n ↔ pivotP1 p ^ (2 * n) ≤ pivotA p ^ (2 * idx + 1) := by
  have hpos : (0 : ℝ) < 2 * n := mul_pos two_pos (Nat.cast_pos.mpr (Nat.pos_of_ne_zero hn))
  rw [← mul_nonneg_iff_of_pos_left hpos, mul_midpoint_eq b hp hn, sub_nonneg,
    logb_natCast_le_iff hb (Nat.pow_pos (pivotP1_pos p)) (Nat.pow_pos (pivotA_pos hp))]

/-- A half-integer is at most a power of the base exactly where its logarithm is at most the exponent, cleared of
fractions. -/
theorem natCast_add_half_le_rpow_iff (hb : 1 < b) (hn : n ≠ 0) (m : Nat) (x : ℝ) :
    (m : ℝ) + 1 / 2 ≤ b ^ x ↔
      Real.logb b ((2 * m + 1) ^ (2 * n) : Nat) ≤ 2 * n * x + Real.logb b (2 ^ (2 * n) : Nat) := by
  have hpos : (0 : ℝ) < 2 * n := mul_pos two_pos (Nat.cast_pos.mpr (Nat.pos_of_ne_zero hn))
  have hhalf : (m : ℝ) + 1 / 2 = ((2 * m + 1 : Nat) : ℝ) / (2 : Nat) := by
    push_cast
    ring
  have hodd : ((2 * m + 1 : Nat) : ℝ) ≠ 0 := Nat.cast_ne_zero.mpr (Nat.succ_ne_zero _)
  have hhalfPos : 0 < (m : ℝ) + 1 / 2 := by positivity
  rw [← Real.logb_le_iff_le_rpow hb hhalfPos, hhalf, Real.logb_div hodd (by norm_num), logb_natCast_pow,
    logb_natCast_pow, ← mul_le_mul_iff_right₀ hpos, ← sub_le_iff_le_add]
  push_cast
  rw [mul_sub]

theorem withinAbove_iff (hb : 1 < b) (hp : p ≤ 255) (hn : n ≠ 0) (m : Nat) :
    (m : ℝ) + 1 / 2 ≤ b ^ midpoint b idx p n ↔ withinAbove idx p n m := by
  have hodd : 0 < (2 * m + 1) ^ (2 * n) := Nat.pow_pos (Nat.succ_pos _)
  have hP1 : 0 < pivotP1 p ^ (2 * n) := Nat.pow_pos (pivotP1_pos p)
  have htwo : 0 < 2 ^ (2 * n) := Nat.two_pow_pos _
  have hA : 0 < pivotA p ^ (2 * idx + 1) := Nat.pow_pos (pivotA_pos hp)
  rw [withinAbove, Nat.mul_pow, ← logb_natCast_le_iff hb (Nat.mul_pos hodd hP1) (Nat.mul_pos htwo hA),
    logb_natCast_mul b hodd hP1, logb_natCast_mul b htwo hA,
    natCast_add_half_le_rpow_iff hb hn, mul_midpoint_eq b hp hn]
  exact ⟨fun h => by linarith, fun h => by linarith⟩

theorem withinBelow_iff (hb : 1 < b) (hp : p ≤ 255) (hn : n ≠ 0) (m : Nat) :
    (m : ℝ) + 1 / 2 ≤ b ^ (-midpoint b idx p n) ↔ withinBelow idx p n m := by
  have hodd : 0 < (2 * m + 1) ^ (2 * n) := Nat.pow_pos (Nat.succ_pos _)
  have hP1 : 0 < pivotP1 p ^ (2 * n) := Nat.pow_pos (pivotP1_pos p)
  have htwo : 0 < 2 ^ (2 * n) := Nat.two_pow_pos _
  have hA : 0 < pivotA p ^ (2 * idx + 1) := Nat.pow_pos (pivotA_pos hp)
  rw [withinBelow, Nat.mul_pow, ← logb_natCast_le_iff hb (Nat.mul_pos hodd hA) (Nat.mul_pos htwo hP1),
    logb_natCast_mul b hodd hA, logb_natCast_mul b htwo hP1,
    natCast_add_half_le_rpow_iff hb hn, mul_neg, mul_midpoint_eq b hp hn]
  exact ⟨fun h => by linarith, fun h => by linarith⟩

/-- The inversion of the scale at the midpoint of interval `idx` (R148). -/
noncomputable def midpointDistance (b : ℝ) (idx p n : Nat) : ℝ :=
  if 0 ≤ midpoint b idx p n then b ^ midpoint b idx p n - 1 else -(b ^ (-midpoint b idx p n) - 1)

/-- The rounded distance of the source's formula is that of the integer form. -/
theorem roundAway_midpointDistance (hb : 1 < b) (hp : p ≤ 255) (hn : n ≠ 0) (hidx : idx < n) :
    roundAway (midpointDistance b idx p n) = reconDistance idx p n := by
  have hround : ∀ {x : ℝ} {r : Nat}, (∀ m : Nat, (m : ℝ) + 1 / 2 ≤ x ↔ m ≤ r) → ⌊x - 1 + 1 / 2⌋ = (r : Int) :=
    fun h => floor_eq_of_natCast_le_iff fun m => by
      rw [← h m]
      exact ⟨fun hm => by linarith, fun hm => by linarith⟩
  by_cases habove : 0 ≤ midpoint b idx p n
  · obtain ⟨r, hr, hiff⟩ := exists_reconDistance_above hp hidx ((midpoint_nonneg_iff hb hp hn).mp habove)
    have hdistance : 0 ≤ b ^ midpoint b idx p n - 1 := sub_nonneg.mpr (Real.one_le_rpow hb.le habove)
    rw [midpointDistance, if_pos habove, roundAway, if_pos hdistance, hr]
    exact hround fun m => (withinAbove_iff hb hp hn m).trans (hiff m)
  · have hbelow := Nat.lt_of_not_le (mt (midpoint_nonneg_iff hb hp hn).mpr habove)
    obtain ⟨r, hr, hiff⟩ := exists_reconDistance_below hp hidx hbelow
    have hdistance : 0 < b ^ (-midpoint b idx p n) - 1 :=
      sub_pos.mpr (Real.one_lt_rpow hb (neg_pos.mpr (not_le.mp habove)))
    rw [midpointDistance, if_neg habove, roundAway, if_neg (not_le.mpr (neg_neg_of_pos hdistance)), neg_neg, hr]
    exact congrArg Neg.neg (hround fun m => (withinBelow_iff hb hp hn m).trans (hiff m))

/-! ### The whole quantiser (R141, R149, R150) -/

theorem logDistance_eq (hb : 1 < b) (hv : v ≤ 255) (hp : p ≤ 255) (hne : v ≠ p) (hn : n ≠ 0) :
    logDistance b v p n = midpointDistance b (idxExact v p n) p n := by
  have hvalue : quantizedLogValue b v p n = midpoint b (idxExact v p n) p n := by
    rw [quantizedLogValue, intervalIndex_eq_idxExact hb hv hp hne hn, Int.cast_natCast, midpoint]
  rw [logDistance, hvalue, midpointDistance]

theorem reconExact_cast (idx p n : Nat) : (reconExact idx p n : Int) = clampInt (p + reconDistance idx p n) 0 255 :=
  Int.toNat_of_nonneg (clampInt_mem _ (by decide)).1

/-- Settles O39. Both have the same interval index and the same rounded distance, in which the base has cancelled. -/
theorem logQuantizerEqualsTheRealFormulas : Obligations.LogQuantizerEqualsTheRealFormulas := by
  intro b v p q hb hv hp _ _
  have hn : 2 ^ q ≠ 0 := (Nat.two_pow_pos q).ne'
  unfold quantLog quantLogReal
  split
  · rfl
  · next hne =>
    rw [reconExact_cast, logDistance_eq hb hv hp hne hn, roundAway_midpointDistance hb hp hn (idxExact_lt hn)]

end Sys2Proof.Machine
end
